-- ==== Sys2Proof/Word.lean ====
section
/-!
DEFINITION. The one word of this hardware: the byte, "ordered sequence of 8-bit values, the unit of both input and output"
(spec/00_scope.md R7 `BYTE_W`, R9). A byte is unsigned and is never read as signed (R9); sequences of bytes are
`List Byte`, first element first (R10). `len(s)` is `s.length`, `rep(v, n)` is `List.replicate n v`.
-/

namespace Sys2Proof

/-- A stream element, 8 bits, unsigned (R9). -/
abbrev Byte := BitVec 8

end Sys2Proof
end

