-- ==== Sys2Proof/Config.lean ====
section
/-!
DEFINITION. What is fixed for the machine: the constants of spec/00_scope.md R7, the parameters R7 leaves OPEN
(`TRUNC_POLICY`, `TOTAL_W`), the small sets of names the spec counts with (agents, tokens, decoder states), and the one
free value (which agent moves when both are live and the host gives no order).
-/

namespace Sys2Proof

/-- The two agents of R3 and R12. -/
inductive Agent where
  /-- The encoder: SCAN, ACC, EMIT. -/
  | enc
  /-- The decoder: INTERP, EXPAND. -/
  | dec
  deriving DecidableEq, Repr, Inhabited

/-- What an agent consumes in one step (R12). -/
inductive Token where
  /-- `BYTE(b)`: one input byte. -/
  | byte (b : Byte)
  /-- `END`: the end of input, once per call, after the last byte. -/
  | eoi
  deriving DecidableEq, Repr

/-- The interpreter state `dstate` of spec/10_state.md R25; both flags set (`0b11`) is not a value of the type (U5). -/
inductive DState where
  | literal
  | readingCount
  | readingValue
  deriving DecidableEq, Repr

/-- The four groups of rows of spec/opcode_table.json (spec/30_encoding.md R95). -/
inductive RowGroup where
  /-- Formats `L`, `D`, `D-illegal`: the wire units. -/
  | wireUnit
  /-- Format `DEC-step`. -/
  | decStep
  /-- Format `ENC-step`. -/
  | encStep
  /-- Format `ENC-emit`. -/
  | encEmit
  deriving DecidableEq, Repr

/-- `TRUNC_POLICY` (R7, spec/42_decoder.md R160, decision D5): what the end of input inside a descriptor does. -/
inductive TruncPolicy where
  /-- The documented current behaviour: the partial descriptor is dropped. -/
  | drop
  /-- The hardened decoder: `CorruptData`. -/
  | error
  deriving DecidableEq, Repr

/-- The parameters R7 leaves OPEN, "an argument of the model". DESIGN CHOICE (log entry 7): they stand as plain data in
`State.cfg`, which no step writes, so that a claim quantifies over them and both values can be run. -/
structure Params where
  /-- `TRUNC_POLICY`. -/
  trunc : TruncPolicy
  /-- `TOTAL_W`: `none` is the unbounded natural number of decision D7, `some w` a hardware whose `total` has `w` bits. -/
  totalW : Option Nat
  deriving DecidableEq, Repr

/-- No finite `TOTAL_W` stands in the way of a total of `n` (R182). -/
def Params.holds (cfg : Params) (n : Nat) : Prop := ∀ w, cfg.totalW = some w → n < 2 ^ w

namespace Config

/-- `ESC`, "a single reserved byte value (0x00)". -/
def esc : Byte := 0x00

/-- `MAX_COUNT`: the largest count a run descriptor carries. -/
def maxCount : Byte := 0xFF

/-- `MIN_COUNT`: the smallest count the decoder accepts. -/
def minCount : Byte := 0x01

/-- `RUN_CAP = MAX_COUNT - 1`: the largest value of the accumulator `run`. -/
def runCap : Byte := 0xFE

/-- `DESC_LEN`: bytes in a run descriptor. -/
def descLen : Nat := 3

/-- `LIT_LEN`: bytes in an encoded literal other than the escape symbol. -/
def litLen : Nat := 1

/-- The values of the OPEN parameters at `State.reset`: R7's "default `drop`", and D7's number without bound. -/
def defaults : Params := { trunc := .drop, totalW := none }

/-- FREE VALUE (log entry 5). Which agent moves at the `k`-th step at which both agents are live and the host has queued
no event: R224 lets "a schedule pick any live agent at each step". It has no body, so nothing can be proved of it. -/
opaque freeTurn : Nat → Agent

end Config

end Sys2Proof
end

