-- ==== Sys2Proof/Syntax.lean ====
section
/-!
DEFINITION. The instructions: one constructor per row of spec/opcode_table.json, in the four groups of
spec/30_encoding.md R95. An operand `b` of a step is the byte of the token `BYTE(b)` the step consumes (R12).
-/

namespace Sys2Proof

/-- The rows of the opcode table: 4 wire units, 7 decoder steps, 9 encoder steps, 2 emitter operations. -/
inductive Instr where
  /-- `LIT b` (R81): the one-byte unit, `b != 0x00`. -/
  | lit (b : Byte)
  /-- `RUN n, v` (R82): the run descriptor `00 n v`, `n != 0x00`. -/
  | run (n v : Byte)
  /-- `ESC1` (R92): `00 01 00`, the pseudo-instruction for `RUN 1, 0x00`. -/
  | esc1
  /-- `(illegal) 00 00` (R86): the zero count. -/
  | illegal
  /-- `DEC.LIT` (R152). -/
  | decLit (b : Byte)
  /-- `DEC.ESC` (R153); its token byte is `0x00`. -/
  | decEsc
  /-- `DEC.CNT` (R155). -/
  | decCnt (b : Byte)
  /-- `DEC.CNT0` (R156); its token byte is `0x00`. -/
  | decCnt0
  /-- `DEC.VAL` (R158). -/
  | decVal (b : Byte)
  /-- `DEC.END.L` (R159); token `END`. -/
  | decEndL
  /-- `DEC.END.T` (R160); token `END`. -/
  | decEndT
  /-- `ENC.FIRST` (R111). -/
  | encFirst (b : Byte)
  /-- `ENC.START` (R112). -/
  | encStart (b : Byte)
  /-- `ENC.SINGLE` (R113). -/
  | encSingle (b : Byte)
  /-- `ENC.EXTEND` (R114). -/
  | encExtend (b : Byte)
  /-- `ENC.CAP` (R115). -/
  | encCap (b : Byte)
  /-- `ENC.BREAK` (R116). -/
  | encBreak (b : Byte)
  /-- `ENC.END.RUN` (R117); token `END`. -/
  | encEndRun
  /-- `ENC.END.LIT` (R118); token `END`. -/
  | encEndLit
  /-- `ENC.END.EMPTY` (R119); token `END`. -/
  | encEndEmpty
  /-- `EmitLiteral(s)` (R141). -/
  | emitLiteral (s : Byte)
  /-- `EmitRun(s, n)` (R142), `n` in 2..255. -/
  | emitRun (s n : Byte)
  deriving DecidableEq, Repr

/-- The token a step consumes (R12; the `token` field of the table's step rows); a unit takes one to three tokens and an
emitter operation none, so they have no single one. -/
def Instr.token : Instr → Option Token
  | .decLit b => some (.byte b)
  | .decEsc => some (.byte Config.esc)
  | .decCnt b => some (.byte b)
  | .decCnt0 => some (.byte Config.esc)
  | .decVal b => some (.byte b)
  | .decEndL => some .eoi
  | .decEndT => some .eoi
  | .encFirst b => some (.byte b)
  | .encStart b => some (.byte b)
  | .encSingle b => some (.byte b)
  | .encExtend b => some (.byte b)
  | .encCap b => some (.byte b)
  | .encBreak b => some (.byte b)
  | .encEndRun => some .eoi
  | .encEndLit => some .eoi
  | .encEndEmpty => some .eoi
  | .lit _ => none
  | .run _ _ => none
  | .esc1 => none
  | .illegal => none
  | .emitLiteral _ => none
  | .emitRun _ _ => none

/-- The group of R95 a row belongs to, told by its `"format"`. -/
def Instr.group : Instr → RowGroup
  | .lit _ => .wireUnit
  | .run _ _ => .wireUnit
  | .esc1 => .wireUnit
  | .illegal => .wireUnit
  | .decLit _ => .decStep
  | .decEsc => .decStep
  | .decCnt _ => .decStep
  | .decCnt0 => .decStep
  | .decVal _ => .decStep
  | .decEndL => .decStep
  | .decEndT => .decStep
  | .encFirst _ => .encStep
  | .encStart _ => .encStep
  | .encSingle _ => .encStep
  | .encExtend _ => .encStep
  | .encCap _ => .encStep
  | .encBreak _ => .encStep
  | .encEndRun => .encStep
  | .encEndLit => .encStep
  | .encEndEmpty => .encStep
  | .emitLiteral _ => .encEmit
  | .emitRun _ _ => .encEmit

/-- The agent an instruction belongs to (R3): the decoder runs units and its steps, the encoder its steps and the emitter. -/
def Instr.agent (i : Instr) : Agent :=
  match i.group with
  | .wireUnit => .dec
  | .decStep => .dec
  | .encStep => .enc
  | .encEmit => .enc

end Sys2Proof
end

