-- ==== Sys2Proof/WellFormed.lean ====
section
/-!
DEFINITION. The operand values the opcode table's `"constraint"` keys and the step rules' "Selected when" lines allow, of
the operands alone (what they ask of the state is checked where a step runs).
-/

namespace Sys2Proof

/-- `LIT b` has `b != 0x00` (R81), `RUN n, v` has `n != 0x00` and any `v` (R82), `DEC.LIT` and `DEC.CNT` have a non-zero
byte (R152, R155), `EmitRun(s, n)` has `n` in 2..255 (R142). Every other operand takes every byte. -/
def Instr.wellFormed : Instr → Bool
  | .lit b => b != Config.esc
  | .run n _ => n != 0
  | .esc1 => true
  | .illegal => true
  | .decLit b => b != Config.esc
  | .decEsc => true
  | .decCnt b => b != 0
  | .decCnt0 => true
  | .decVal _ => true
  | .decEndL => true
  | .decEndT => true
  | .encFirst _ => true
  | .encStart _ => true
  | .encSingle _ => true
  | .encExtend _ => true
  | .encCap _ => true
  | .encBreak _ => true
  | .encEndRun => true
  | .encEndLit => true
  | .encEndEmpty => true
  | .emitLiteral _ => true
  | .emitRun _ n => 2 ≤ n.toNat

end Sys2Proof
end

