-- ==== Sys2Proof/Decode.lean ====
section
/-!
DEFINITION. Decoding, total and rejecting by name: the wire units from bytes (spec/30_encoding.md R84, R86, R95), the
decoder's step from `dstate` and the token (spec/42_decoder.md R151), the encoder's step from its registers and the token
(spec/40_encoder_scan.md R110). After it the encoder of each row (R81, R82, R92, R95), and the reading of a word as
spec/opcode_table.json numbers its bits.
-/

namespace Sys2Proof

/-- Why bytes, or a pair (state, token), select no instruction. -/
inductive DecodeError where
  /-- No byte is left at the unit boundary. -/
  | endOfStream
  /-- The stream ends `... 00` (R87). -/
  | truncatedAfterEscape
  /-- The stream ends `... 00 n`, `n != 0` (R87). -/
  | truncatedAfterCount
  /-- No row of R110's table: a state no run reaches (`run = 255`, or `run` not 0 while `pend_valid = 0`; U7, R23). -/
  | noEncoderRow
  deriving DecidableEq, Repr

/-- The unit at the head of a stream and the bytes after it: the first byte decides the alternative and the length (R84,
R85); `00 00` is decided on its second byte and a third is never read (R86); `00 01 00` is read under its own name `ESC1`
(R92, log entry 10). -/
def decodeUnit : List Byte → Except DecodeError (Instr × List Byte)
  | [] => .error .endOfStream
  | b :: afterFirst =>
    if b ≠ Config.esc then .ok (.lit b, afterFirst)
    else
      match afterFirst with
      | [] => .error .truncatedAfterEscape
      | n :: afterCount =>
        if n = 0 then .ok (.illegal, afterCount)
        else
          match afterCount with
          | [] => .error .truncatedAfterCount
          | v :: afterValue =>
            if n = 1 ∧ v = Config.esc then .ok (.esc1, afterValue) else .ok (.run n v, afterValue)

/-- The decoder's step for a token in phase `Run`, R151's table row by row. -/
def decodeDecStep : DState → Token → Instr
  | .literal, .byte b => if b ≠ Config.esc then .decLit b else .decEsc
  | .readingCount, .byte b => if b ≠ 0 then .decCnt b else .decCnt0
  | .readingValue, .byte b => .decVal b
  | .literal, .eoi => .decEndL
  | .readingCount, .eoi => .decEndT
  | .readingValue, .eoi => .decEndT

/-- The encoder's step for a token in phase `Run`, R110's table row by row: by `pend_valid`, `b` against `pend`, and the
range of `run` (0, 1..253, 254). -/
def decodeEncStep (pendValid : Bool) (pend run : Byte) : Token → Except DecodeError Instr
  | .byte b =>
    if pendValid then
      if b = pend then
        if run.toNat = 0 then .ok (.encStart b)
        else if run.toNat ≤ 253 then .ok (.encExtend b)
        else if run.toNat = 254 then .ok (.encCap b)
        else .error .noEncoderRow
      else if run.toNat = 0 then .ok (.encSingle b)
      else if run.toNat ≤ 254 then .ok (.encBreak b)
      else .error .noEncoderRow
    else if run.toNat = 0 then .ok (.encFirst b) else .error .noEncoderRow
  | .eoi =>
    if pendValid then
      if run.toNat = 0 then .ok .encEndLit
      else if run.toNat ≤ 254 then .ok .encEndRun
      else .error .noEncoderRow
    else if run.toNat = 0 then .ok .encEndEmpty else .error .noEncoderRow

/-- The bytes of a token on the stream: one for `BYTE(b)`, none for `END` (R54). -/
def Token.bytes : Token → List Byte
  | .byte b => [b]
  | .eoi => []

/-- The bytes of a row, `"encoding"` of R95: a unit's bytes on the wire, a step's token byte (none for `END`), the bytes an
emitter operation appends. -/
def encode : Instr → List Byte
  | .lit b => [b]
  | .run n v => [Config.esc, n, v]
  | .esc1 => [Config.esc, 1, Config.esc]
  | .illegal => [Config.esc, 0]
  | .decLit b => [b]
  | .decEsc => [Config.esc]
  | .decCnt b => [b]
  | .decCnt0 => [0]
  | .decVal b => [b]
  | .decEndL => []
  | .decEndT => []
  | .encFirst b => [b]
  | .encStart b => [b]
  | .encSingle b => [b]
  | .encExtend b => [b]
  | .encCap b => [b]
  | .encBreak b => [b]
  | .encEndRun => []
  | .encEndLit => []
  | .encEndEmpty => []
  | .emitLiteral s => if s ≠ Config.esc then [s] else [Config.esc, 1, Config.esc]
  | .emitRun s n => [Config.esc, n, s]

/-- The name under which `decodeUnit` reads a unit: `RUN 1, 0x00` and `ESC1` are the same three bytes (R92), read as
`ESC1`; every other instruction is its own name. -/
def unitName : Instr → Instr
  | .run n v => if n = 1 ∧ v = Config.esc then .esc1 else .run n v
  | i => i

/-- The number of bytes of a row's encoding: R84 for the units, one token byte or none for the steps, R141 and R142 for the
emitter. -/
def encodedLength : Instr → Nat
  | .lit _ => 1
  | .run _ _ => 3
  | .esc1 => 3
  | .illegal => 2
  | .decLit _ => 1
  | .decEsc => 1
  | .decCnt _ => 1
  | .decCnt0 => 1
  | .decVal _ => 1
  | .decEndL => 0
  | .decEndT => 0
  | .encFirst _ => 1
  | .encStart _ => 1
  | .encSingle _ => 1
  | .encExtend _ => 1
  | .encCap _ => 1
  | .encBreak _ => 1
  | .encEndRun => 0
  | .encEndLit => 0
  | .encEndEmpty => 0
  | .emitLiteral s => if s = Config.esc then 3 else 1
  | .emitRun _ _ => 3

/-- `count` bytes of `w`, the most significant first. -/
def bigEndianBytes : Nat → Nat → List Byte
  | 0, _ => []
  | count + 1, w => BitVec.ofNat 8 (w >>> (8 * count)) :: bigEndianBytes count w

/-- The stream bytes of a table word of `nbits` bits. The table reads a row's pattern as one number with stream byte 0
leftmost (R82 "with stream byte 0 leftmost"; R95; its `"fixed"` bits of `RUN` are 23..16), so the first stream byte is the
most significant one (DEDUCED, log entry 13). -/
def tableWordBytes (nbits w : Nat) : List Byte := bigEndianBytes (nbits / 8) w

/-- The instruction the decoder, at a unit boundary, reads from a table word (log entry 13): no byte is the token `END`, the
one byte `00` is the token of `DEC.ESC`, anything else is read as a wire unit. -/
def decodeTableWord (nbits w : Nat) : Option Instr :=
  match tableWordBytes nbits w with
  | [] => some .decEndL
  | [b] => some (if b = Config.esc then .decEsc else .lit b)
  | bytes =>
    match decodeUnit bytes with
    | .ok (i, _) => some i
    | .error _ => none

end Sys2Proof
end

