-- ==== Sys2Proof/Machine/State.lean ====
section
/-!
DEFINITION. The whole state as plain data (spec/10_state.md R20): the two agents' disjoint records with their input streams
and output sinks, the model's parameters, and what the model itself adds to make one deterministic step of two agents and
a host (the host's queue of events, a counter for the free order). The reasons a step can stop, and the state after reset.
-/

namespace Sys2Proof.Machine

/-- A byte-addressed store: the cells that hold a byte, addresses strictly rising; an address with no cell has no value (log
entry 14). -/
abbrev Memory := List Host.Cell

/-- An agent's input stream `IN` and cursor (R30, R50). -/
structure Source where
  /-- `IN`, fixed when the call is launched, never written by the agent. -/
  bytes : List Byte
  /-- `ipos`: the count of input bytes the call has consumed, the index of the next. -/
  ipos : Nat
  deriving DecidableEq, Repr

/-- An agent's output sink `OUT` (R31, R51). -/
structure Sink where
  /-- `OUT`: the bytes appended so far, by this call and by earlier ones. -/
  out : Memory
  /-- `olen`: the length of `OUT`, the index the next `Emit` writes. -/
  olen : Nat
  /-- `olen_at_reset`: what `olen` was when the call began. -/
  base : Nat
  deriving DecidableEq, Repr

/-- The encoder's `phase` (R24); the values 2 and 3 are not values of the type (U6). -/
inductive EncPhase where
  | run
  | done
  deriving DecidableEq, Repr

/-- The decoder's `phase` (R27); the value 3 is not a value of the type (U6). -/
inductive DecPhase where
  | run
  | done
  | fault
  deriving DecidableEq, Repr

/-- `err` (R28); the value 3 is not a value of the type (U6). -/
inductive Err where
  | none
  | corruptData
  /-- The host wrapper's error: no step of the core writes it (R212). -/
  | invalidArgument
  deriving DecidableEq, Repr

/-- The encoder record of R20. -/
structure Enc where
  /-- `phase` (R24). -/
  phase : EncPhase
  /-- `pend_valid` (R21). -/
  pendValid : Bool
  /-- `pend` (R21). -/
  pend : Byte
  /-- `run` (R22), legal values 0..254. -/
  run : Byte
  /-- `IN` and `ipos`. -/
  src : Source
  /-- `OUT` and `olen`. -/
  sink : Sink
  deriving DecidableEq, Repr

/-- The decoder record of R20. -/
structure Dec where
  /-- `phase` (R27). -/
  phase : DecPhase
  /-- `dstate` (R25). -/
  dstate : DState
  /-- `cnt` (R26). -/
  cnt : Byte
  /-- `total` (R29). -/
  total : Nat
  /-- `err` (R28). -/
  err : Err
  /-- `IN` and `ipos`. -/
  src : Source
  /-- `OUT` and `olen`. -/
  sink : Sink
  deriving DecidableEq, Repr

/-- The input stream a host gives a call (R245 (1)). -/
inductive InputArg where
  /-- A byte sequence of this call's own. -/
  | own (bytes : List Byte)
  /-- The bytes the encoder's finished call appended (R57). -/
  | encoderOutput
  /-- The input stream of another live call (R247 (d)). -/
  | sharedWithLive
  deriving DecidableEq, Repr

/-- The output sink a host gives a call (R245 (1)). -/
inductive SinkArg where
  /-- The sink the agent already has: the call appends to what it holds (R31). -/
  | kept
  /-- Another sink of this call's own, which holds these bytes. -/
  | own (contents : List Byte)
  /-- No sink (R212, R247 (c)). -/
  | absent
  /-- The sink of another live call (R56, R247 (d)). -/
  | sharedWithLive
  /-- A sink that is the call's own input stream (R59, R247 (d)). -/
  | aliasedToInput
  /-- A sink that may refuse an append (decision D10, U9). -/
  | canFail
  deriving DecidableEq, Repr

/-- Steps (1) and (2) of the call protocol (R245): streams are provided, then the agent is reset. -/
structure Launch where
  agent : Agent
  input : InputArg
  sink : SinkArg
  deriving DecidableEq, Repr

/-- What the host does to the machine (R246). Reading the status view changes nothing and is no event. -/
inductive HostEvent where
  /-- The agent is offered its next token and takes one step (R245 (3), (4)). -/
  | token (a : Agent)
  /-- The decoder consumes the whole unit at the cursor in one step (R162), or one token where there is none. -/
  | unit
  /-- Reset alone (R240): the call starts again on the agent's streams. -/
  | reset (a : Agent)
  /-- A call is launched. -/
  | launch (l : Launch)
  deriving DecidableEq, Repr

/-- The machine: two agents that share nothing (R20), the parameters, and the model's own host side. -/
structure State where
  /-- The encoder. -/
  enc : Enc
  /-- The decoder. -/
  dec : Dec
  /-- The OPEN parameters of R7; no step writes them (log entry 7). -/
  cfg : Params
  /-- The model's own: the host's events not yet taken, oldest first (log entry 6). -/
  host : List HostEvent
  /-- The model's own: how many free choices of the next agent have been made (log entry 5). -/
  turns : Nat
  deriving DecidableEq, Repr

/-- Why the machine stops with a fault. (`CorruptData` is none of these: its entry is a next state, R214, log entry 16.) -/
inductive Fault where
  /-- Raised by a fetch or a step whose cursor stands beyond the end of `IN`, an address no stream has (R50; log entry 14): no run
  reaches such a state. SAFE: the spec gives it no behaviour. -/
  | cursorPastEnd
  deriving DecidableEq, Repr

/-- Why the machine gives no meaning (R13 "Refused"). All are SAFE: a refusal errs toward unprovable. -/
inductive Refusal where
  /-- An arm of `exec` that has no meaning yet; no arm answers it. SAFE. -/
  | notModelled (mnemonic : String)
  /-- A token offered to an agent in phase `Done` or `Fault`, or to a machine with no live agent (R247 (a), (b)). SAFE. -/
  | callOver
  /-- An instruction executed where its rule's "Selected when" line does not hold (log entry 11). SAFE. -/
  | notSelected
  /-- A step fetched in an encoder state outside every row of R110's table, which no run reaches (log entry 21). SAFE. -/
  | noStepRow
  /-- A decoder step that would bring `total` to `2^TOTAL_W` (R182, R247 (f); log entry 8). SAFE. -/
  | totalOverflow
  /-- A launch without a sink (R212, R247 (c); log entry 9). SAFE. -/
  | noSink
  /-- A launch whose input or sink belongs to another live call (R56, R247 (d); log entry 9). SAFE. -/
  | sharedStream
  /-- A launch whose sink is its own input (R59, R247 (d); log entry 9). SAFE. -/
  | aliasedStreams
  /-- A launch on a sink that can refuse an append (U9, decision D10; log entries 9 and 19). SAFE. -/
  | failingSink
  /-- A launch on the output of an encoder whose call has not finished (R57; log entry 22). SAFE. -/
  | streamNotFinished
  deriving DecidableEq, Repr

/-- The machine right after power-on reset, which is the reset of a call (R36, R240). The registers `pend` and `cnt` have no
reset value in the spec and hold 0 here (DESIGN CHOICE, log entries 1 and 2); no call has been launched, so the streams
and sinks are empty (DESIGN CHOICE, log entry 3). -/
def State.reset : State :=
  { enc :=
      { phase := .run, pendValid := false, pend := 0, run := 0
        src := { bytes := [], ipos := 0 }
        sink := { out := [], olen := 0, base := 0 } }
    dec :=
      { phase := .run, dstate := .literal, cnt := 0, total := 0, err := .none
        src := { bytes := [], ipos := 0 }
        sink := { out := [], olen := 0, base := 0 } }
    cfg := Config.defaults
    host := []
    turns := 0 }

end Sys2Proof.Machine
end

