-- ==== Sys2Proof/Machine/Ops.lean ====
section
/-!
DEFINITION. The named operations over streams, sinks and records that every step is written with: `MemRead`, `MemWrite`,
`Emit`, the cursor's advance and the token (spec/00_scope.md R11, R12), the addition to `total` (R182), fault entry
(spec/60_exceptions.md R214), reset (spec/10_state.md R36), and the frame all steps share: a step runs only in phase `Run`,
on its own token, where its rule selects it.
-/

namespace Sys2Proof.Machine

/-- The byte at an address, if one was ever written there. -/
def Memory.read : Memory → Nat → Option Byte
  | [], _ => none
  | (k, v) :: m, a => if a = k then some v else Memory.read m a

/-- Write one byte, keeping the addresses strictly rising. -/
def Memory.write : Memory → Nat → Byte → Memory
  | [], a, b => [(a, b)]
  | (k, v) :: m, a, b =>
    if a < k then (a, b) :: (k, v) :: m
    else if a = k then (a, b) :: m
    else (k, v) :: Memory.write m a b

/-- The canonical form: addresses strictly rising. (No cell can hold what an unlisted address reads as, since that is no
value.) -/
abbrev Memory.wf (m : Memory) : Prop := List.Pairwise (fun x y : Host.Cell => x.1 < y.1) m

/-- The `n` bytes from address `a`, in order of address. -/
def Memory.slice (m : Memory) (a n : Nat) : List Byte := (List.range n).filterMap fun i => m.read (a + i)

/-- `tok` of R11: `BYTE(b)` with `b = MemRead(IN, ipos, 1)` while `ipos < len(IN)`, `END` at `ipos = len(IN)`; beyond that
there is no token. -/
def Source.token (src : Source) : Option Token :=
  match src.bytes[src.ipos]? with
  | some b => some (.byte b)
  | none => if src.ipos = src.bytes.length then some .eoi else none

/-- `ipos <- ipos + 1` (R30). -/
def Source.advance (src : Source) : Source := { src with ipos := src.ipos + 1 }

/-- Whether the bytes at the cursor begin with `bs`. -/
def Source.startsWith (src : Source) (bs : List Byte) : Bool := (src.bytes.drop src.ipos).take bs.length == bs

/-- The stream of a call that has consumed nothing. -/
def Source.start (bytes : List Byte) : Source := { bytes := bytes, ipos := 0 }

/-- `Emit(b)`: `MemWrite(OUT, olen, 1, b); olen <- olen + 1` (R11, R51). -/
def Sink.emit (k : Sink) (b : Byte) : Sink := { k with out := k.out.write k.olen b, olen := k.olen + 1 }

/-- `Emit(a, b, c)`: the bytes in order (R11). -/
def Sink.emitAll (k : Sink) : List Byte → Sink
  | [] => k
  | b :: bs => (k.emit b).emitAll bs

/-- "The output" of a call: `OUT[olen_at_reset .. olen - 1]` (R31). -/
def Sink.output (k : Sink) : List Byte := k.out.slice k.base (k.olen - k.base)

/-- The sink as a new call finds it: nothing of it changes, and the call's output begins at its end (R31, R36). -/
def Sink.beginCall (k : Sink) : Sink := { k with base := k.olen }

/-- A sink that holds these bytes. -/
def Sink.holding (contents : List Byte) : Sink := ({ out := [], olen := 0, base := 0 } : Sink).emitAll contents

/-- The sink invariant: `OUT` holds exactly the addresses `0 .. olen - 1`, and the call began within it. -/
abbrev Sink.wf (k : Sink) : Prop := k.out.map Prod.fst = List.range k.olen ∧ k.base ≤ k.olen

/-- Reset of the encoder (R36): `OUT` and `olen` are unchanged; `pend`, unspecified, takes its power-on value (log entry 1). -/
def Enc.reset (e : Enc) : Enc :=
  { phase := .run, pendValid := false, pend := 0, run := 0, src := Source.start e.src.bytes, sink := e.sink.beginCall }

/-- Reset of the decoder (R36): `OUT` and `olen` are unchanged; `cnt`, unspecified, takes its power-on value (log entry 2). -/
def Dec.reset (d : Dec) : Dec :=
  { phase := .run, dstate := .literal, cnt := 0, total := 0, err := .none, src := Source.start d.src.bytes
    sink := d.sink.beginCall }

/-- TAKING AN EXCEPTION, `raise CorruptData(ipos)` (R214): `err <- CorruptData; phase <- Fault`, and nothing else (log entry 16). There is
no saved context and no handler; there is no return from it (R215): the one way out is `Dec.reset`. -/
def Dec.raiseCorruptData (d : Dec) : Dec := { d with phase := .fault, err := .corruptData }

/-- `total <- total + k`, exact (R182); no value where a finite `TOTAL_W` cannot hold the sum (R247 (f); log entry 8). -/
def Dec.addTotal (cfg : Params) (k : Nat) (d : Dec) : Option Dec :=
  match cfg.totalW with
  | none => some { d with total := d.total + k }
  | some w => if d.total + k < 2 ^ w then some { d with total := d.total + k } else none

/-- One encoder step (R12, R13): in phase `Run`, on the token `t` at the cursor, where the rule's condition `sel` holds, the
encoder's record becomes `after`. -/
def encStep (t : Token) (sel : Bool) (after : Enc) (s : State) : Host.Outcome State Fault Refusal :=
  match s.enc.phase, s.enc.src.token with
  | .done, _ => .refused .callOver
  | .run, none => .fault .cursorPastEnd
  | .run, some t' => if t' = t ∧ sel then .next { s with enc := after } else .refused .notSelected

/-- What a decoder rule's writes come to: the new record, or a refusal where `total` would not fit (R247 (f)). -/
def decResult (after : Option Dec) (s : State) : Host.Outcome State Fault Refusal :=
  match after with
  | some d => .next { s with dec := d }
  | none => .refused .totalOverflow

/-- One decoder step (R12, R13): in phase `Run`, on the token `t` at the cursor, where the rule's condition `sel` holds. -/
def decStep (t : Token) (sel : Bool) (after : Option Dec) (s : State) : Host.Outcome State Fault Refusal :=
  match s.dec.phase, s.dec.src.token with
  | .done, _ => .refused .callOver
  | .fault, _ => .refused .callOver
  | .run, none => .fault .cursorPastEnd
  | .run, some t' => if t' = t ∧ sel then decResult after s else .refused .notSelected

/-- One unit as a composite instruction (R162): in phase `Run`, at a unit boundary (`dstate = Literal`), where all the bytes
of the unit are present at the cursor. -/
def unitStep (bs : List Byte) (sel : Bool) (after : Option Dec) (s : State) : Host.Outcome State Fault Refusal :=
  match s.dec.phase, s.dec.src.token with
  | .done, _ => .refused .callOver
  | .fault, _ => .refused .callOver
  | .run, none => .fault .cursorPastEnd
  | .run, some _ =>
    if s.dec.dstate = .literal ∧ s.dec.src.startsWith bs ∧ sel then decResult after s else .refused .notSelected

/-- One emitter operation as an instruction (R140): it is called by a scanner step, so in phase `Run` (log entry 12). -/
def emitterStep (sel : Bool) (after : Sink) (s : State) : Host.Outcome State Fault Refusal :=
  match s.enc.phase with
  | .done => .refused .callOver
  | .run => if sel then .next { s with enc := { s.enc with sink := after } } else .refused .notSelected

end Sys2Proof.Machine
end

