-- ==== Sys2Proof/Machine/Operands.lean ====
section
/-!
DEFINITION. The operand forms and the arithmetic on operands (spec/43_codec_laws.md R180): the symbol `pend` and its
comparison with the token byte, the range tests of the accumulator `run`, the count byte, the copies of an expanded run, and
how many bytes a step reads and appends (spec/20_memory.md R60).
-/

namespace Sys2Proof.Machine

/-- `pend_valid = 1` and `b = pend` (R110). -/
def Enc.pendIs (e : Enc) (b : Byte) : Bool := e.pendValid && (b == e.pend)

/-- `pend_valid = 1` and `b != pend` (R110). -/
def Enc.pendIsNot (e : Enc) (b : Byte) : Bool := e.pendValid && (b != e.pend)

/-- `run = 0`. -/
def Enc.runZero (e : Enc) : Bool := e.run == 0

/-- `1 <= run <= 253`: a matching byte extends the run (R114). -/
def Enc.runExtends (e : Enc) : Bool := 1 ≤ e.run.toNat && e.run.toNat ≤ 253

/-- `run = 254 = RUN_CAP` (R115). -/
def Enc.runFull (e : Enc) : Bool := e.run == Config.runCap

/-- `1 <= run <= 254` (R116, R117). -/
def Enc.runHeld (e : Enc) : Bool := 1 ≤ e.run.toNat && e.run.toNat ≤ 254

/-- `run + 1` stored back to `run` (R114, R180 (3)); the operand is at most 253, so it never wraps (R181). -/
def Enc.runNext (e : Enc) : Byte := e.run + 1

/-- The count byte `zext_8(run) + 1` (R142, R180 (4)); the operand is at most 254, so it never wraps (R181). -/
def Enc.countByte (e : Enc) : Byte := e.run + 1

/-- `rep(b, cnt)`, the copies unit EXPAND writes (R158). -/
def Dec.copies (d : Dec) (b : Byte) : List Byte := List.replicate d.cnt.toNat b

/-- The bytes of `EmitLiteral(s)` (R141). -/
def literalBytes (s : Byte) : List Byte := if s ≠ Config.esc then [s] else [Config.esc, 0x01, Config.esc]

/-- The bytes of `EmitRun(s, n)`: escape symbol, count, value, in this order (R142, R52). -/
def descriptorBytes (s n : Byte) : List Byte := [Config.esc, n, s]

/-- The bytes an instruction appends to its agent's sink in a state, R60's table with the bytes of the rules it names. -/
def appended (s : State) : Instr → List Byte
  | .lit b => [b]
  | .run n v => List.replicate n.toNat v
  | .esc1 => [Config.esc]
  | .illegal => []
  | .decLit b => [b]
  | .decEsc => []
  | .decCnt _ => []
  | .decCnt0 => []
  | .decVal b => s.dec.copies b
  | .decEndL => []
  | .decEndT => []
  | .encFirst _ => []
  | .encStart _ => []
  | .encSingle _ => literalBytes s.enc.pend
  | .encExtend _ => []
  | .encCap _ => descriptorBytes s.enc.pend Config.maxCount
  | .encBreak _ => descriptorBytes s.enc.pend s.enc.countByte
  | .encEndRun => descriptorBytes s.enc.pend s.enc.countByte
  | .encEndLit => literalBytes s.enc.pend
  | .encEndEmpty => []
  | .emitLiteral x => literalBytes x
  | .emitRun x n => descriptorBytes x n

/-- How far an instruction moves its agent's cursor (R30, R60, R162): one per `BYTE` token it consumes, none for `END`, none
for the byte that faults. -/
def consumed : Instr → Nat
  | .lit _ => 1
  | .run _ _ => 3
  | .esc1 => 3
  | .illegal => 1
  | .decLit _ => 1
  | .decEsc => 1
  | .decCnt _ => 1
  | .decCnt0 => 0
  | .decVal _ => 1
  | .decEndL => 0
  | .decEndT => 0
  | .encFirst _ => 1
  | .encStart _ => 1
  | .encSingle _ => 1
  | .encExtend _ => 1
  | .encCap _ => 1
  | .encBreak _ => 1
  | .encEndRun => 0
  | .encEndLit => 0
  | .encEndEmpty => 0
  | .emitLiteral _ => 0
  | .emitRun _ _ => 0

end Sys2Proof.Machine
end

