-- ==== Sys2Proof/Machine/Flags.lean ====
section
/-!
DEFINITION. The flags and the status view (spec/10_state.md R23 to R28, R32, R33): the derived flag "a run is active", the
numeric values of `phase`, `dstate` and `err`, what the host may read of each agent, and the call's result.
-/

namespace Sys2Proof.Machine

/-- The derived flag "a run is active": `run >= 1` (R23). -/
def Enc.runActive (e : Enc) : Bool := 1 ≤ e.run.toNat

/-- A call is over when its phase is `Done` (R248). -/
def Enc.over (e : Enc) : Bool :=
  match e.phase with
  | .run => false
  | .done => true

/-- A call is over when its phase is `Done` or `Fault` (R248). -/
def Dec.over (d : Dec) : Bool :=
  match d.phase with
  | .run => false
  | .done => true
  | .fault => true

/-- Encoder `phase`, 2 bits: `Run` = 0, `Done` = 1 (R24). -/
def EncPhase.code : EncPhase → BitVec 2
  | .run => 0
  | .done => 1

/-- Decoder `phase`, 2 bits: `Run` = 0, `Done` = 1, `Fault` = 2 (R27). -/
def DecPhase.code : DecPhase → BitVec 2
  | .run => 0
  | .done => 1
  | .fault => 2

/-- `dstate`, 2 bits: bit 0 is "reading count", bit 1 is "reading value" (R25). -/
def dstateCode : DState → BitVec 2
  | .literal => 0b00
  | .readingCount => 0b01
  | .readingValue => 0b10

/-- `err`, 2 bits: `None` = 0, `CorruptData` = 1, `InvalidArgument` = 2 (R28, R210). -/
def Err.code : Err → BitVec 2
  | .none => 0
  | .corruptData => 1
  | .invalidArgument => 2

/-- The encoder's status view (R32). -/
structure EncStatus where
  phase : BitVec 2
  pendValid : BitVec 1
  pend : BitVec 8
  run : BitVec 8
  deriving DecidableEq, Repr

/-- The decoder's status view (R32). -/
structure DecStatus where
  phase : BitVec 2
  dstate : BitVec 2
  cnt : BitVec 8
  err : BitVec 2
  total : Nat
  deriving DecidableEq, Repr

/-- What the host reads of the encoder; reading changes nothing (R32, R246). -/
def Enc.status (e : Enc) : EncStatus :=
  { phase := e.phase.code, pendValid := BitVec.ofBool e.pendValid, pend := e.pend, run := e.run }

/-- What the host reads of the decoder; reading changes nothing (R32, R246). -/
def Dec.status (d : Dec) : DecStatus :=
  { phase := d.phase.code, dstate := dstateCode d.dstate, cnt := d.cnt, err := d.err.code, total := d.total }

/-- The result the decoder owes the host (R33): `total` in phase `Done`, none while it runs and none after a fault. -/
def Dec.result (d : Dec) : Option Nat :=
  match d.phase with
  | .run => none
  | .done => some d.total
  | .fault => none

/-- The sign of a truncated stream under `drop` (R37 (v), R160): `Done` with `dstate` not `Literal`. -/
def Dec.truncated (d : Dec) : Bool := d.phase == .done && d.dstate != .literal

end Sys2Proof.Machine
end

