-- ==== Sys2Proof/Machine/EncEmit.lean ====
section
/-!
DEFINITION. The escape-code emitter EMIT (spec/41_encoder_emit.md): its two operations on a sink, which the scanner's steps
call, and their meanings as instructions of the table. It has no state of its own and writes no register but `olen` (R140).
-/

namespace Sys2Proof.Machine

/-- `EmitLiteral(s)` (R141): `s` itself, or `00 01 00` for the escape symbol. -/
def Sink.emitLiteral (k : Sink) (s : Byte) : Sink := k.emitAll (literalBytes s)

/-- `EmitRun(s, n)` (R142): `00 n s`. -/
def Sink.emitRun (k : Sink) (s n : Byte) : Sink := k.emitAll (descriptorBytes s n)

/-- `EmitLiteral(s)` as an instruction (R141). -/
def execEmitLiteral (x : Byte) (s : State) : Host.Outcome State Fault Refusal :=
  emitterStep true (s.enc.sink.emitLiteral x) s

/-- `EmitRun(s, n)` as an instruction (R142), `n` in 2..255. -/
def execEmitRun (x n : Byte) (s : State) : Host.Outcome State Fault Refusal :=
  emitterStep (2 ≤ n.toNat) (s.enc.sink.emitRun x n) s

end Sys2Proof.Machine
end

