-- ==== Sys2Proof/Machine/EncScan.lean ====
section
/-!
DEFINITION. The byte scanner SCAN and the run-length accumulator ACC (spec/40_encoder_scan.md): one meaning per step rule,
R111 to R119, each selected by its row of R110's table.
-/

namespace Sys2Proof.Machine

/-- `ENC.FIRST` (R111): `pend <- b; pend_valid <- 1; ipos <- ipos + 1`. -/
def execEncFirst (b : Byte) (s : State) : Host.Outcome State Fault Refusal :=
  encStep (.byte b) (!s.enc.pendValid && s.enc.runZero)
    { s.enc with pend := b, pendValid := true, src := s.enc.src.advance } s

/-- `ENC.START` (R112): `run <- 1; ipos <- ipos + 1`. -/
def execEncStart (b : Byte) (s : State) : Host.Outcome State Fault Refusal :=
  encStep (.byte b) (s.enc.pendIs b && s.enc.runZero) { s.enc with run := 1, src := s.enc.src.advance } s

/-- `ENC.SINGLE` (R113): `EmitLiteral(pend); pend <- b; ipos <- ipos + 1`; the emission uses the old `pend`. -/
def execEncSingle (b : Byte) (s : State) : Host.Outcome State Fault Refusal :=
  encStep (.byte b) (s.enc.pendIsNot b && s.enc.runZero)
    { s.enc with sink := s.enc.sink.emitLiteral s.enc.pend, pend := b, src := s.enc.src.advance } s

/-- `ENC.EXTEND` (R114): `run <- run + 1; ipos <- ipos + 1`. -/
def execEncExtend (b : Byte) (s : State) : Host.Outcome State Fault Refusal :=
  encStep (.byte b) (s.enc.pendIs b && s.enc.runExtends)
    { s.enc with run := s.enc.runNext, src := s.enc.src.advance } s

/-- `ENC.CAP` (R115): `EmitRun(pend, 255); pend <- b; run <- 0; ipos <- ipos + 1`. -/
def execEncCap (b : Byte) (s : State) : Host.Outcome State Fault Refusal :=
  encStep (.byte b) (s.enc.pendIs b && s.enc.runFull)
    { s.enc with
      sink := s.enc.sink.emitRun s.enc.pend Config.maxCount, pend := b, run := 0, src := s.enc.src.advance } s

/-- `ENC.BREAK` (R116): `EmitRun(pend, run + 1); pend <- b; run <- 0; ipos <- ipos + 1`; the old `pend` and `run` are
emitted. -/
def execEncBreak (b : Byte) (s : State) : Host.Outcome State Fault Refusal :=
  encStep (.byte b) (s.enc.pendIsNot b && s.enc.runHeld)
    { s.enc with
      sink := s.enc.sink.emitRun s.enc.pend s.enc.countByte, pend := b, run := 0, src := s.enc.src.advance } s

/-- `ENC.END.RUN` (R117): `EmitRun(pend, run + 1); phase <- Done`. -/
def execEncEndRun (s : State) : Host.Outcome State Fault Refusal :=
  encStep .eoi (s.enc.pendValid && s.enc.runHeld)
    { s.enc with sink := s.enc.sink.emitRun s.enc.pend s.enc.countByte, phase := .done } s

/-- `ENC.END.LIT` (R118): `EmitLiteral(pend); phase <- Done`. -/
def execEncEndLit (s : State) : Host.Outcome State Fault Refusal :=
  encStep .eoi (s.enc.pendValid && s.enc.runZero)
    { s.enc with sink := s.enc.sink.emitLiteral s.enc.pend, phase := .done } s

/-- `ENC.END.EMPTY` (R119): `phase <- Done`. -/
def execEncEndEmpty (s : State) : Host.Outcome State Fault Refusal :=
  encStep .eoi (!s.enc.pendValid && s.enc.runZero) { s.enc with phase := .done } s

end Sys2Proof.Machine
end

