-- ==== Sys2Proof/Machine/DecSteps.lean ====
section
/-!
DEFINITION. The escape-sequence interpreter INTERP and the run expander EXPAND (spec/42_decoder.md): what each step rule
writes to the decoder's record, and one meaning per step rule, R152 to R160, each selected by its row of R151's table.
-/

namespace Sys2Proof.Machine

/-- `Emit(b); total <- total + 1; ipos <- ipos + 1` (R152). -/
def Dec.afterLit (cfg : Params) (b : Byte) (d : Dec) : Option Dec :=
  (d.addTotal cfg 1).map fun d' => { d' with sink := d.sink.emit b, src := d.src.advance }

/-- `dstate <- ReadingCount; ipos <- ipos + 1` (R153). -/
def Dec.afterEsc (d : Dec) : Dec := { d with dstate := .readingCount, src := d.src.advance }

/-- `cnt <- b; dstate <- ReadingValue; ipos <- ipos + 1` (R155). -/
def Dec.afterCnt (b : Byte) (d : Dec) : Dec := { d with cnt := b, dstate := .readingValue, src := d.src.advance }

/-- `repeat cnt times: Emit(b); total <- total + cnt; dstate <- Literal; ipos <- ipos + 1` (R158); `cnt` keeps its value. -/
def Dec.afterVal (cfg : Params) (b : Byte) (d : Dec) : Option Dec :=
  (d.addTotal cfg d.cnt.toNat).map fun d' =>
    { d' with sink := d.sink.emitAll (d.copies b), dstate := .literal, src := d.src.advance }

/-- `phase <- Done` (R159). -/
def Dec.afterEnd (d : Dec) : Dec := { d with phase := .done }

/-- The end of input inside a descriptor (R160): under `drop` the call is done, under `error` it faults. -/
def Dec.afterTruncatedEnd (policy : TruncPolicy) (d : Dec) : Dec :=
  match policy with
  | .drop => d.afterEnd
  | .error => d.raiseCorruptData

/-- `DEC.LIT` (R152). -/
def execDecLit (b : Byte) (s : State) : Host.Outcome State Fault Refusal :=
  decStep (.byte b) (s.dec.dstate == .literal && b != Config.esc) (s.dec.afterLit s.cfg b) s

/-- `DEC.ESC` (R153). -/
def execDecEsc (s : State) : Host.Outcome State Fault Refusal :=
  decStep (.byte Config.esc) (s.dec.dstate == .literal) (some s.dec.afterEsc) s

/-- `DEC.CNT` (R154, R155). -/
def execDecCnt (b : Byte) (s : State) : Host.Outcome State Fault Refusal :=
  decStep (.byte b) (s.dec.dstate == .readingCount && b != 0) (some (s.dec.afterCnt b)) s

/-- `DEC.CNT0` (R156): it takes the exception `CorruptData`. -/
def execDecCnt0 (s : State) : Host.Outcome State Fault Refusal :=
  decStep (.byte 0) (s.dec.dstate == .readingCount) (some s.dec.raiseCorruptData) s

/-- `DEC.VAL` (R157, R158). -/
def execDecVal (b : Byte) (s : State) : Host.Outcome State Fault Refusal :=
  decStep (.byte b) (s.dec.dstate == .readingValue) (s.dec.afterVal s.cfg b) s

/-- `DEC.END.L` (R159). -/
def execDecEndL (s : State) : Host.Outcome State Fault Refusal :=
  decStep .eoi (s.dec.dstate == .literal) (some s.dec.afterEnd) s

/-- `DEC.END.T` (R160). -/
def execDecEndT (s : State) : Host.Outcome State Fault Refusal :=
  decStep .eoi (s.dec.dstate != .literal) (some (s.dec.afterTruncatedEnd s.cfg.trunc)) s

end Sys2Proof.Machine
end

