-- ==== Sys2Proof/Machine/Units.lean ====
section
/-!
DEFINITION. The wire units as composite instructions of the decoder (spec/42_decoder.md R162, spec/30_encoding.md R86): each
is the sequence of token steps the opcode table's `"decoder_steps"` lists for it, taken at once at a unit boundary where all
its bytes are present. The per-token steps of DecSteps.lean are the normative ones (log entry 15).
-/

namespace Sys2Proof.Machine

/-- `DEC.ESC; DEC.CNT; DEC.VAL` on the bytes `00 n v`. -/
def Dec.afterRun (cfg : Params) (n v : Byte) (d : Dec) : Option Dec := (d.afterEsc.afterCnt n).afterVal cfg v

/-- `LIT b` (R81): `DEC.LIT`. -/
def execLit (b : Byte) (s : State) : Host.Outcome State Fault Refusal :=
  unitStep (encode (.lit b)) (b != Config.esc) (s.dec.afterLit s.cfg b) s

/-- `RUN n, v` (R82): `DEC.ESC; DEC.CNT; DEC.VAL`. -/
def execRun (n v : Byte) (s : State) : Host.Outcome State Fault Refusal :=
  unitStep (encode (.run n v)) (n != 0) (s.dec.afterRun s.cfg n v) s

/-- `ESC1` (R92): `RUN 1, 0x00`. -/
def execEsc1 (s : State) : Host.Outcome State Fault Refusal :=
  unitStep (encode .esc1) true (s.dec.afterRun s.cfg 1 Config.esc) s

/-- `(illegal) 00 00` (R86): `DEC.ESC; DEC.CNT0`, the exception `CorruptData` at the second byte. -/
def execIllegal (s : State) : Host.Outcome State Fault Refusal :=
  unitStep (encode .illegal) true (some s.dec.afterEsc.raiseCorruptData) s

end Sys2Proof.Machine
end

