-- ==== Sys2Proof/Machine/Dispatch.lean ====
section
/-!
DEFINITION. One arm per instruction, each one call of its meaning.
-/

namespace Sys2Proof.Machine

def exec (i : Instr) (s : State) : Host.Outcome State Fault Refusal :=
  match i with
  | .lit b => Sys2Proof.Machine.execLit b s
  | .run n v => Sys2Proof.Machine.execRun n v s
  | .esc1 => Sys2Proof.Machine.execEsc1 s
  | .illegal => Sys2Proof.Machine.execIllegal s
  | .decLit b => Sys2Proof.Machine.execDecLit b s
  | .decEsc => Sys2Proof.Machine.execDecEsc s
  | .decCnt b => Sys2Proof.Machine.execDecCnt b s
  | .decCnt0 => Sys2Proof.Machine.execDecCnt0 s
  | .decVal b => Sys2Proof.Machine.execDecVal b s
  | .decEndL => Sys2Proof.Machine.execDecEndL s
  | .decEndT => Sys2Proof.Machine.execDecEndT s
  | .encFirst b => Sys2Proof.Machine.execEncFirst b s
  | .encStart b => Sys2Proof.Machine.execEncStart b s
  | .encSingle b => Sys2Proof.Machine.execEncSingle b s
  | .encExtend b => Sys2Proof.Machine.execEncExtend b s
  | .encCap b => Sys2Proof.Machine.execEncCap b s
  | .encBreak b => Sys2Proof.Machine.execEncBreak b s
  | .encEndRun => Sys2Proof.Machine.execEncEndRun s
  | .encEndLit => Sys2Proof.Machine.execEncEndLit s
  | .encEndEmpty => Sys2Proof.Machine.execEncEndEmpty s
  | .emitLiteral x => Sys2Proof.Machine.execEmitLiteral x s
  | .emitRun x n => Sys2Proof.Machine.execEmitRun x n s

end Sys2Proof.Machine
end

