-- ==== Sys2Proof/Machine/Fetch.lean ====
section
/-!
DEFINITION. Selecting the next instruction (spec/30_encoding.md R94): an agent in phase `Run` has exactly one step for its
next token (R110, R151); the decoder at a unit boundary may instead take the unit at its cursor (R162). Where the bytes of a
table word are put so that they are the next instruction.
-/

namespace Sys2Proof.Machine

/-- The encoder's step for its next token. -/
def Enc.nextStep (e : Enc) : Host.Outcome Instr Fault Refusal :=
  match e.phase, e.src.token with
  | .done, _ => .refused .callOver
  | .run, none => .fault .cursorPastEnd
  | .run, some t =>
    match decodeEncStep e.pendValid e.pend e.run t with
    | .ok i => .next i
    | .error _ => .refused .noStepRow

/-- The decoder's step for its next token. -/
def Dec.nextStep (d : Dec) : Host.Outcome Instr Fault Refusal :=
  match d.phase, d.src.token with
  | .done, _ => .refused .callOver
  | .fault, _ => .refused .callOver
  | .run, none => .fault .cursorPastEnd
  | .run, some t => .next (decodeDecStep d.dstate t)

/-- The decoder's unit at its cursor, where it stands at a unit boundary and all bytes of the unit are present; its step for
the next token where not ("the fused form is defined only where all three bytes are present", R162). -/
def Dec.nextUnit (d : Dec) : Host.Outcome Instr Fault Refusal :=
  match d.phase, d.dstate, decodeUnit (d.src.bytes.drop d.src.ipos) with
  | .run, .literal, .ok (i, _) => .next i
  | _, _, _ => d.nextStep

/-- The next step of an agent. -/
def State.nextStep (s : State) : Agent → Host.Outcome Instr Fault Refusal
  | .enc => s.enc.nextStep
  | .dec => s.dec.nextStep

/-- The agent that moves when the host has queued no event: a live one, by a free choice where both are live (R224; log
entry 5); none when both calls are over. -/
def State.liveAgent (s : State) : Option Agent :=
  match s.enc.over, s.dec.over with
  | false, false => some (Config.freeTurn s.turns)
  | false, true => some .enc
  | true, false => some .dec
  | true, true => none

/-- The state after that choice: a free choice is not made twice. -/
def State.afterChoice (s : State) : State :=
  match s.enc.over, s.dec.over with
  | false, false => { s with turns := s.turns + 1 }
  | false, true => s
  | true, false => s
  | true, true => s

/-- The host event that makes the decoder run a table word's bytes as `decodeTableWord` reads them: a unit; for no byte, or
for the one byte `00`, a token. -/
def wordEvent : List Byte → HostEvent
  | [] => .token .dec
  | [b] => if b = Config.esc then .token .dec else .unit
  | _ => .unit

/-- The input stream with `bs` at index `i`, in place of the bytes there; for no byte, the stream ends at `i`. -/
def placeBytes (stream : List Byte) (i : Nat) : List Byte → List Byte
  | [] => stream.take i ++ List.replicate (i - stream.length) 0
  | b :: bs => stream.take i ++ List.replicate (i - stream.length) 0 ++ (b :: bs) ++ stream.drop (i + (b :: bs).length)

/-- A decoder about to run the bytes `bs`: in phase `Run` at a unit boundary, with `bs` at the cursor (log entry 4). -/
def Dec.withBytes (d : Dec) (bs : List Byte) : Dec :=
  { d with
    phase := .run, err := .none, dstate := .literal
    src := { d.src with bytes := placeBytes d.src.bytes d.src.ipos bs } }

end Sys2Proof.Machine
end

