-- ==== Sys2Proof/Machine/HostIf.lean ====
section
/-!
DEFINITION. What the host does to the machine between tokens (spec/70_reset_and_hazards.md R240, R245 to R247): launching a
call, which provides the streams and resets the agent, and reset alone. The launches the spec gives no meaning are refused
by name (log entries 9, 20, 22, 23).
-/

namespace Sys2Proof.Machine

/-- The input bytes of a launch. An encoder's output may be handed over only once its call is `Done` (R57). -/
def State.launchInput (s : State) : InputArg → Except Refusal (List Byte)
  | .own bytes => .ok bytes
  | .encoderOutput => if s.enc.phase = .done then .ok s.enc.sink.output else .error .streamNotFinished
  | .sharedWithLive => .error .sharedStream

/-- The sink of a launch, given the sink the agent already has. -/
def launchSink (current : Sink) : SinkArg → Except Refusal Sink
  | .kept => .ok current
  | .own contents => .ok (Sink.holding contents)
  | .absent => .error .noSink
  | .sharedWithLive => .error .sharedStream
  | .aliasedToInput => .error .aliasedStreams
  | .canFail => .error .failingSink

/-- The sink an agent has. -/
def State.sinkOf (s : State) : Agent → Sink
  | .enc => s.enc.sink
  | .dec => s.dec.sink

/-- Reset of one agent (R240); it may come in any phase, and touches nothing of the other agent. -/
def State.resetAgent (s : State) : Agent → State
  | .enc => { s with enc := s.enc.reset }
  | .dec => { s with dec := s.dec.reset }

/-- Step (1) of the call protocol (R245): the agent's streams. -/
def State.provide (s : State) (bytes : List Byte) (k : Sink) : Agent → State
  | .enc => { s with enc := { s.enc with src := Source.start bytes, sink := k } }
  | .dec => { s with dec := { s.dec with src := Source.start bytes, sink := k } }

/-- Steps (1) and (2) of the call protocol (R245). The sink is looked at first, since `InvalidArgument` "comes before
everything" (R216); a refused launch changes no state and consumes no token (R212). -/
def State.launch (s : State) (l : Launch) : Host.Outcome State Fault Refusal :=
  match launchSink (s.sinkOf l.agent) l.sink, s.launchInput l.input with
  | .error r, _ => .refused r
  | .ok _, .error r => .refused r
  | .ok k, .ok bytes => .next ((s.provide bytes k l.agent).resetAgent l.agent)

/-- The error a checking host wrapper reports itself, to either operation, before it resets the core (R212): the core never
writes it. -/
def Launch.wrapperError (l : Launch) : Err := if l.sink = .absent then .invalidArgument else .none

end Sys2Proof.Machine
end

