-- ==== Sys2Proof/Machine/Step.lean ====
section
/-!
DEFINITION. One step of the machine: the host's oldest event, or, where none is queued, one token step of a live agent.
-/

namespace Sys2Proof.Machine

/-- Run the instruction a fetch selected. -/
def runFetched (f : Host.Outcome Instr Fault Refusal) (s : State) : Host.Outcome State Fault Refusal :=
  match f with
  | .next i => exec i s
  | .fault r => .fault r
  | .refused r => .refused r

/-- One step. An event is taken off the queue and done; a token offered to an agent whose call is over is refused (R247);
with no event queued a live agent takes its next token (R224), and with no live agent there is no step. -/
def step (s : State) : Host.Outcome State Fault Refusal :=
  match s.host with
  | .token a :: rest => runFetched (s.nextStep a) { s with host := rest }
  | .unit :: rest => runFetched s.dec.nextUnit { s with host := rest }
  | .reset a :: rest => .next (({ s with host := rest } : State).resetAgent a)
  | .launch l :: rest => ({ s with host := rest } : State).launch l
  | [] =>
    match s.liveAgent with
    | some a => runFetched (s.nextStep a) s.afterChoice
    | none => .refused .callOver

/-- The state with a table word at the decoder's cursor and the event that runs it next in the host's queue (log entry 4). -/
def State.withFetchWord (s : State) (nbits w : Nat) : State :=
  { s with
    dec := s.dec.withBytes (tableWordBytes nbits w)
    host := wordEvent (tableWordBytes nbits w) :: s.host }

end Sys2Proof.Machine
end

