-- ==== Sys2Proof/Machine/Codec.lean ====
section
/-!
DEFINITION. The codec as two functions on byte sequences, as the spec writes them beside the step rules: the reference
programs of spec/43_codec_laws.md R187 and R189, the closed form of R188, the classes of encoded streams of
spec/30_encoding.md R85 and the recogniser of R199. No step uses them; the claims compare the machine with them.
-/

namespace Sys2Proof.Machine

/-- The loop of R187's reference program: `pend_valid`, `pend`, `run` (a natural number here), the output so far, the input
left. -/
def encodeLoop (pendValid : Bool) (pend : Byte) (run : Nat) (out : List Byte) : List Byte → List Byte
  | [] =>
    if 1 ≤ run then out ++ [0x00, BitVec.ofNat 8 (run + 1), pend]
    else if pendValid then out ++ literalBytes pend
    else out
  | b :: rest =>
    if pendValid = false then encodeLoop true b run out rest
    else if b = pend ∧ run = 0 then encodeLoop true pend 1 out rest
    else if b ≠ pend ∧ run = 0 then encodeLoop true b run (out ++ literalBytes pend) rest
    else if b = pend ∧ run ≤ 253 then encodeLoop true pend (run + 1) out rest
    else if b = pend then encodeLoop true b 0 (out ++ [0x00, 0xFF, pend]) rest
    else encodeLoop true b 0 (out ++ [0x00, BitVec.ofNat 8 (run + 1), pend]) rest

/-- `encode(S)` by R187's reference program. -/
def encodeRef (stream : List Byte) : List Byte := encodeLoop false 0 0 [] stream

/-- The maximal runs of a sequence, each with its value and length (R188). -/
def maximalRuns : List Byte → List (Byte × Nat)
  | [] => []
  | b :: rest =>
    match maximalRuns rest with
    | [] => [(b, 1)]
    | (v, n) :: more => if b = v then (v, n + 1) :: more else (b, 1) :: (v, n) :: more

/-- `tail(v, m)` of R188, `m` in 0..254. -/
def tailBytes (v : Byte) (m : Nat) : List Byte :=
  if m = 0 then [] else if m = 1 then literalBytes v else [0x00, BitVec.ofNat 8 m, v]

/-- `chunk(v, L)` of R188: full descriptors first, then the tail. -/
def chunk (v : Byte) (n : Nat) : List Byte :=
  (List.replicate (n / 255) ([0x00, 0xFF, v] : List Byte)).flatten ++ tailBytes v (n % 255)

/-- `encode(S)` in R188's closed form. -/
def encodeClosed (stream : List Byte) : List Byte := (maximalRuns stream).flatMap fun r => chunk r.1 r.2

/-- What a decode comes to (R189): the output, the total and the final `dstate`, or `CorruptData` at an index. -/
inductive DecodeResult where
  | done (out : List Byte) (total : Nat) (dstate : DState)
  | corrupt (index : Nat)
  deriving DecidableEq, Repr

/-- The loop of R189's reference program: `dstate`, `cnt`, the output so far, `total`, the index, the input left. -/
def decodeLoop (policy : TruncPolicy) (ds : DState) (cnt : Byte) (out : List Byte) (total i : Nat) :
    List Byte → DecodeResult
  | [] => if ds ≠ .literal ∧ policy = .error then .corrupt i else .done out total ds
  | b :: rest =>
    match ds with
    | .literal =>
      if b ≠ 0x00 then decodeLoop policy .literal cnt (out ++ [b]) (total + 1) (i + 1) rest
      else decodeLoop policy .readingCount cnt out total (i + 1) rest
    | .readingCount =>
      if b = 0x00 then .corrupt i else decodeLoop policy .readingValue b out total (i + 1) rest
    | .readingValue =>
      decodeLoop policy .literal cnt (out ++ List.replicate cnt.toNat b) (total + cnt.toNat) (i + 1) rest

/-- `decode(E)` by R189's reference program. -/
def decodeRef (policy : TruncPolicy) (stream : List Byte) : DecodeResult := decodeLoop policy .literal 0 [] 0 0 stream

/-- The three classes of R85 a byte sequence is one of; a well-formed one with its units, a corrupt one with the index of its
first zero count. -/
inductive StreamClass where
  | wellFormed (units : List Instr)
  | corrupt (index : Nat)
  | truncated (units : List Instr)
  deriving DecidableEq, Repr

/-- The class with one more unit, of `len` bytes, in front. -/
def StreamClass.cons (u : Instr) (len : Nat) : StreamClass → StreamClass
  | .wellFormed us => .wellFormed (u :: us)
  | .corrupt i => .corrupt (i + len)
  | .truncated us => .truncated (u :: us)

/-- The parse of R85: at each unit boundary the first byte decides the alternative and the length. -/
def classify : List Byte → StreamClass
  | [] => .wellFormed []
  | b :: afterFirst =>
    if b ≠ 0x00 then (classify afterFirst).cons (.lit b) 1
    else
      match afterFirst with
      | [] => .truncated []
      | n :: afterCount =>
        if n = 0x00 then .corrupt 1
        else
          match afterCount with
          | [] => .truncated []
          | v :: afterValue => (classify afterValue).cons (unitName (.run n v)) 3

/-- The meaning of a unit (R81, R82, R92). -/
def unitMeaning : Instr → List Byte
  | .lit b => [b]
  | .run n v => List.replicate n.toNat v
  | .esc1 => [0x00]
  | .illegal => []
  | .decLit _ => []
  | .decEsc => []
  | .decCnt _ => []
  | .decCnt0 => []
  | .decVal _ => []
  | .decEndL => []
  | .decEndT => []
  | .encFirst _ => []
  | .encStart _ => []
  | .encSingle _ => []
  | .encExtend _ => []
  | .encCap _ => []
  | .encBreak _ => []
  | .encEndRun => []
  | .encEndLit => []
  | .encEndEmpty => []
  | .emitLiteral _ => []
  | .emitRun _ _ => []

/-- The value a unit carries (R199). -/
def unitValue (u : Instr) : Option Byte := (unitMeaning u).head?

/-- Whether a unit is a full descriptor `RUN 255, v`, the only unit R199 lets another of the same value follow. -/
def unitIsFull : Instr → Bool
  | .run n _ => n == 0xFF
  | .lit _ => false
  | .esc1 => false
  | .illegal => false
  | .decLit _ => false
  | .decEsc => false
  | .decCnt _ => false
  | .decCnt0 => false
  | .decVal _ => false
  | .decEndL => false
  | .decEndT => false
  | .encFirst _ => false
  | .encStart _ => false
  | .encSingle _ => false
  | .encExtend _ => false
  | .encCap _ => false
  | .encBreak _ => false
  | .encEndRun => false
  | .encEndLit => false
  | .encEndEmpty => false
  | .emitLiteral _ => false
  | .emitRun _ _ => false

/-- Whether a unit may stand in a canonical stream at all: `RUN 1, v` with `v != 0x00` never does (R199). -/
def unitIsCanonical : Instr → Bool
  | .lit b => b != 0x00
  | .run n _ => 2 ≤ n.toNat
  | .esc1 => true
  | .illegal => false
  | .decLit _ => false
  | .decEsc => false
  | .decCnt _ => false
  | .decCnt0 => false
  | .decVal _ => false
  | .decEndL => false
  | .decEndT => false
  | .encFirst _ => false
  | .encStart _ => false
  | .encSingle _ => false
  | .encExtend _ => false
  | .encCap _ => false
  | .encBreak _ => false
  | .encEndRun => false
  | .encEndLit => false
  | .encEndEmpty => false
  | .emitLiteral _ => false
  | .emitRun _ _ => false

/-- The recogniser of R199 on a unit sequence: every unit is of a canonical form, and a unit followed by one of the same
value is a full descriptor. -/
def canonicalUnits : List Instr → Bool
  | [] => true
  | [u] => unitIsCanonical u
  | u :: w :: rest =>
    unitIsCanonical u && (unitValue u != unitValue w || unitIsFull u) && canonicalUnits (w :: rest)

end Sys2Proof.Machine
end

