-- ==== Sys2Proof/Safety.lean ====
section
/-!
DEFINITION. What counts as a safe state, in the terms the claims use: the invariants of the two records the spec states
(spec/10_state.md R23, R26, R28, R29, R37), and what the encoder has emitted and what it still holds (R121).
-/

namespace Sys2Proof.Machine

/-- The encoder's reachable states (R22, R23, R30): (i) no pending symbol means no run, (ii) `run <= 254`, (iii) in phase
`Run` no symbol is pending exactly when nothing was consumed; the cursor is in the stream, and at its end in `Done`; the
sink holds what its length says. -/
structure Enc.Inv (e : Enc) : Prop where
  noPendNoRun : e.pendValid = false → e.run = 0
  runCapped : e.run.toNat ≤ 254
  pendIffConsumed : e.phase = .run → (e.pendValid = false ↔ e.src.ipos = 0)
  cursorInStream : e.src.ipos ≤ e.src.bytes.length
  doneAtEnd : e.phase = .done → e.src.ipos = e.src.bytes.length
  sinkWf : e.sink.wf

/-- The decoder's reachable states (R37): (ii) in `ReadingValue` the count is not zero, (iii) `phase = Fault` exactly when
`err != None`, and `err` is never the wrapper's (R212), (iv) `total` is the number of bytes the call appended; the cursor is
in the stream, and at its end in `Done`; the sink holds what its length says. -/
structure Dec.Inv (d : Dec) : Prop where
  countNonzero : d.dstate = .readingValue → 1 ≤ d.cnt.toNat
  faultIffErr : d.phase = .fault ↔ d.err ≠ .none
  errIsCores : d.err ≠ .invalidArgument
  totalIsAppended : d.sink.base + d.total = d.sink.olen
  cursorInStream : d.src.ipos ≤ d.src.bytes.length
  doneAtEnd : d.phase = .done → d.src.ipos = d.src.bytes.length
  sinkWf : d.sink.wf

/-- The whole machine's invariant. -/
structure State.Inv (s : State) : Prop where
  enc : s.enc.Inv
  dec : s.dec.Inv
  totalFits : ∀ w, s.cfg.totalW = some w → s.dec.total < 2 ^ w

/-- The input bytes the encoder has consumed and not yet emitted: `run + 1` copies of `pend` (R121). -/
def Enc.held (e : Enc) : List Byte := if e.pendValid then List.replicate (e.run.toNat + 1) e.pend else []

/-- The consumed bytes whose encoding has been emitted: `IN[0 .. k - run - 2]` (R121). -/
def Enc.emittedPart (e : Enc) : List Byte := e.src.bytes.take (e.src.ipos - e.held.length)

/-- R121 as an invariant. In phase `Run` the consumed bytes are the emitted part and then the held ones, the output is the
canonical encoding of the emitted part, and a run of the pending symbol at the end of the emitted part was cut only at full
descriptors (so that what is held never continues a shorter one); in `Done` the output is that of the whole input (R117 to
R119). -/
def Enc.Tracks (e : Enc) : Prop :=
  match e.phase with
  | .run =>
    e.src.bytes.take e.src.ipos = e.emittedPart ++ e.held ∧
      e.sink.output = encodeClosed e.emittedPart ∧
      ∀ k front, e.emittedPart = front ++ List.replicate k e.pend → front.getLast? ≠ some e.pend → k % 255 = 0
  | .done => e.sink.output = encodeClosed e.src.bytes

/-- A call has just been reset (R36): phase `Run`, nothing pending, cursor at 0, output begins here. -/
def Enc.fresh (e : Enc) : Prop :=
  e.phase = .run ∧ e.pendValid = false ∧ e.run = 0 ∧ e.src.ipos = 0 ∧ e.sink.base = e.sink.olen

/-- A call has just been reset (R36): phase `Run`, `Literal`, `total` 0, no error, cursor at 0, output begins here. -/
def Dec.fresh (d : Dec) : Prop :=
  d.phase = .run ∧ d.dstate = .literal ∧ d.total = 0 ∧ d.err = .none ∧ d.src.ipos = 0 ∧ d.sink.base = d.sink.olen

end Sys2Proof.Machine
end

