-- ==== Sys2Proof/Certificates/Slice0/Obligations.lean ====
section
/-!
DEFINITION. The statements for the provers. Each docstring names the rules of spec/ it formalises. In every statement the
next state is written out field by field; `Sink.emitAll` is the one named operation left in them, and `SinkAppendsInOrder`
says what it does to every byte.
-/

open Sys2Proof Sys2Proof.Machine

/-! ### The encoder's steps -/

/-- R111: on the first byte the encoder adopts it, marks it pending and moves its cursor; nothing else changes. The premise
`run = 0` is the row's in R110's table. -/
def Obligations.EncFirstAdoptsTheByte : Prop :=
  ∀ (s : State) (b : Byte), s.enc.phase = .run → s.enc.src.token = some (.byte b) → s.enc.pendValid = false →
    s.enc.run = 0 →
    exec (.encFirst b) s = .next { s with enc := { s.enc with
      pend := b, pendValid := true, src := { s.enc.src with ipos := s.enc.src.ipos + 1 } } }

/-- R112: on the pending byte with no run, `run` becomes 1 and the cursor moves; nothing else changes. -/
def Obligations.EncStartBeginsARun : Prop :=
  ∀ (s : State) (b : Byte), s.enc.phase = .run → s.enc.src.token = some (.byte b) → s.enc.pendValid = true →
    b = s.enc.pend → s.enc.run = 0 →
    exec (.encStart b) s = .next { s with enc := { s.enc with
      run := 1, src := { s.enc.src with ipos := s.enc.src.ipos + 1 } } }

/-- R113: on another byte with no run, the old pending symbol is emitted as a literal (one byte, or `00 01 00` for the escape
symbol), the byte becomes pending and the cursor moves; nothing else changes. -/
def Obligations.EncSingleEmitsTheLiteral : Prop :=
  ∀ (s : State) (b : Byte), s.enc.phase = .run → s.enc.src.token = some (.byte b) → s.enc.pendValid = true →
    b ≠ s.enc.pend → s.enc.run = 0 →
    exec (.encSingle b) s = .next { s with enc := { s.enc with
      sink := s.enc.sink.emitAll (if s.enc.pend = 0x00 then [0x00, 0x01, 0x00] else [s.enc.pend])
      pend := b, src := { s.enc.src with ipos := s.enc.src.ipos + 1 } } }

/-- R114: on the pending byte with `1 <= run <= 253`, `run` grows by one, with no wrap, and the cursor moves; nothing else
changes. -/
def Obligations.EncExtendCountsOneMore : Prop :=
  ∀ (s : State) (b : Byte), s.enc.phase = .run → s.enc.src.token = some (.byte b) → s.enc.pendValid = true →
    b = s.enc.pend → 1 ≤ s.enc.run.toNat → s.enc.run.toNat ≤ 253 →
    ∃ r : Byte, r.toNat = s.enc.run.toNat + 1 ∧
      exec (.encExtend b) s = .next { s with enc := { s.enc with
        run := r, src := { s.enc.src with ipos := s.enc.src.ipos + 1 } } }

/-- R115, R190: on the pending byte with `run = 254`, the full descriptor `00 FF pend` is emitted, the byte becomes pending with
`run = 0` and the cursor moves; nothing else changes. The clause `run = 0` is an inference the spec marks as its own: R115 says
"That `run` becomes 0 is not said in so many words for this bullet", and derives it from R190 (N15). -/
def Obligations.EncCapFlushesAFullRun : Prop :=
  ∀ (s : State) (b : Byte), s.enc.phase = .run → s.enc.src.token = some (.byte b) → s.enc.pendValid = true →
    b = s.enc.pend → s.enc.run = 254 →
    exec (.encCap b) s = .next { s with enc := { s.enc with
      sink := s.enc.sink.emitAll [0x00, 0xFF, s.enc.pend]
      pend := b, run := 0, src := { s.enc.src with ipos := s.enc.src.ipos + 1 } } }

/-- R116: on another byte with `1 <= run <= 254`, the descriptor of the old symbol with count `run + 1`, not wrapped, is
emitted, the byte becomes pending with `run = 0` and the cursor moves; nothing else changes. -/
def Obligations.EncBreakFlushesTheRun : Prop :=
  ∀ (s : State) (b : Byte), s.enc.phase = .run → s.enc.src.token = some (.byte b) → s.enc.pendValid = true →
    b ≠ s.enc.pend → 1 ≤ s.enc.run.toNat → s.enc.run.toNat ≤ 254 →
    ∃ n : Byte, n.toNat = s.enc.run.toNat + 1 ∧
      exec (.encBreak b) s = .next { s with enc := { s.enc with
        sink := s.enc.sink.emitAll [0x00, n, s.enc.pend]
        pend := b, run := 0, src := { s.enc.src with ipos := s.enc.src.ipos + 1 } } }

/-- R117: at the end of input with a run active, the descriptor with count `run + 1` is emitted and the call is done; nothing
else changes. -/
def Obligations.EncEndRunFlushesAndEnds : Prop :=
  ∀ s : State, s.enc.phase = .run → s.enc.src.token = some .eoi → s.enc.pendValid = true →
    1 ≤ s.enc.run.toNat → s.enc.run.toNat ≤ 254 →
    ∃ n : Byte, n.toNat = s.enc.run.toNat + 1 ∧
      exec .encEndRun s = .next { s with enc := { s.enc with
        sink := s.enc.sink.emitAll [0x00, n, s.enc.pend], phase := .done } }

/-- R118: at the end of input with a single pending occurrence, it is emitted as a literal and the call is done; nothing else
changes. -/
def Obligations.EncEndLitEmitsAndEnds : Prop :=
  ∀ s : State, s.enc.phase = .run → s.enc.src.token = some .eoi → s.enc.pendValid = true → s.enc.run = 0 →
    exec .encEndLit s = .next { s with enc := { s.enc with
      sink := s.enc.sink.emitAll (if s.enc.pend = 0x00 then [0x00, 0x01, 0x00] else [s.enc.pend])
      phase := .done } }

/-- R119: at the end of an empty input the call is done; nothing else changes, nothing is appended. The premise `run = 0` is
the row's in R110's table. -/
def Obligations.EncEndEmptyOnlyEnds : Prop :=
  ∀ s : State, s.enc.phase = .run → s.enc.src.token = some .eoi → s.enc.pendValid = false → s.enc.run = 0 →
    exec .encEndEmpty s = .next { s with enc := { s.enc with phase := .done } }

/-! ### The emitter -/

/-- R141: `EmitLiteral(s)` appends `s`, or `00 01 00` when `s` is the escape symbol, and writes no register. It runs in phase
`Run` (log entry 12). -/
def Obligations.EmitLiteralEscapesOnlyZero : Prop :=
  ∀ (s : State) (x : Byte), s.enc.phase = .run →
    exec (.emitLiteral x) s = .next { s with enc := { s.enc with
      sink := s.enc.sink.emitAll (if x = 0x00 then [0x00, 0x01, 0x00] else [x]) } }

/-- R142: `EmitRun(s, n)`, `n` in 2..255, appends `00 n s` in this order and writes no register. It runs in phase `Run` (log
entry 12). -/
def Obligations.EmitRunAppendsTheDescriptor : Prop :=
  ∀ (s : State) (x n : Byte), s.enc.phase = .run → 2 ≤ n.toNat →
    exec (.emitRun x n) s = .next { s with enc := { s.enc with sink := s.enc.sink.emitAll [0x00, n, x] } }

/-! ### The decoder's steps -/

/-- R152: in `Literal` a byte other than the escape symbol is copied to the output, `total` grows by one and the cursor
moves; nothing else changes. A finite `TOTAL_W` must hold the sum (R182). -/
def Obligations.DecLitCopiesTheByte : Prop :=
  ∀ (s : State) (b : Byte), s.dec.phase = .run → s.dec.src.token = some (.byte b) → s.dec.dstate = .literal →
    b ≠ 0x00 → s.cfg.holds (s.dec.total + 1) →
    exec (.decLit b) s = .next { s with dec := { s.dec with
      sink := s.dec.sink.emitAll [b], total := s.dec.total + 1
      src := { s.dec.src with ipos := s.dec.src.ipos + 1 } } }

/-- R153: in `Literal` the escape symbol leads to `ReadingCount` and the cursor moves; nothing else changes. -/
def Obligations.DecEscEntersADescriptor : Prop :=
  ∀ s : State, s.dec.phase = .run → s.dec.src.token = some (.byte 0x00) → s.dec.dstate = .literal →
    exec .decEsc s = .next { s with dec := { s.dec with
      dstate := .readingCount, src := { s.dec.src with ipos := s.dec.src.ipos + 1 } } }

/-- R154, R155: in `ReadingCount` every byte but zero is stored as the count, as it stands, and leads to `ReadingValue`; the
cursor moves; nothing else changes. -/
def Obligations.DecCntStoresTheCount : Prop :=
  ∀ (s : State) (b : Byte), s.dec.phase = .run → s.dec.src.token = some (.byte b) → s.dec.dstate = .readingCount →
    b ≠ 0x00 →
    exec (.decCnt b) s = .next { s with dec := { s.dec with
      cnt := b, dstate := .readingValue, src := { s.dec.src with ipos := s.dec.src.ipos + 1 } } }

/-- R156 (R214, R33): in `ReadingCount` a zero byte raises `CorruptData`: `err` and `phase` are written, and nothing else: the
cursor stays at the offending byte, nothing is appended, what was appended stays; and the call has no result. -/
def Obligations.DecCnt0RaisesCorruptData : Prop :=
  ∀ s : State, s.dec.phase = .run → s.dec.src.token = some (.byte 0x00) → s.dec.dstate = .readingCount →
    exec .decCnt0 s = .next { s with dec := { s.dec with err := .corruptData, phase := .fault } } ∧
      ({ s.dec with err := .corruptData, phase := .fault } : Dec).result = none

/-- R157, R158: in `ReadingValue` every byte, the escape symbol included, is written `cnt` times, `total` grows by `cnt`, the
state is `Literal` again and the cursor moves; nothing else changes, `cnt` included. A finite `TOTAL_W` must hold the sum
(R182). -/
def Obligations.DecValExpandsTheRun : Prop :=
  ∀ (s : State) (b : Byte), s.dec.phase = .run → s.dec.src.token = some (.byte b) → s.dec.dstate = .readingValue →
    s.cfg.holds (s.dec.total + s.dec.cnt.toNat) →
    exec (.decVal b) s = .next { s with dec := { s.dec with
      sink := s.dec.sink.emitAll (List.replicate s.dec.cnt.toNat b), total := s.dec.total + s.dec.cnt.toNat
      dstate := .literal, src := { s.dec.src with ipos := s.dec.src.ipos + 1 } } }

/-- R159, R33: the end of input in `Literal` ends the call, and its result is `total`; nothing else changes. -/
def Obligations.DecEndLEndsTheCall : Prop :=
  ∀ s : State, s.dec.phase = .run → s.dec.src.token = some .eoi → s.dec.dstate = .literal →
    exec .decEndL s = .next { s with dec := { s.dec with phase := .done } } ∧
      ({ s.dec with phase := .done } : Dec).result = some s.dec.total

/-- R160: the end of input inside a descriptor. Under `drop` the call is done with `dstate` left as the sign of truncation
and `total` as the result; under `error` it raises `CorruptData`. Nothing else changes under either. -/
def Obligations.DecEndTFollowsThePolicy : Prop :=
  ∀ s : State, s.dec.phase = .run → s.dec.src.token = some .eoi → s.dec.dstate ≠ .literal →
    (s.cfg.trunc = .drop →
      exec .decEndT s = .next { s with dec := { s.dec with phase := .done } } ∧
        ({ s.dec with phase := .done } : Dec).result = some s.dec.total ∧
        ({ s.dec with phase := .done } : Dec).truncated = true) ∧
      (s.cfg.trunc = .error →
        exec .decEndT s = .next { s with dec := { s.dec with err := .corruptData, phase := .fault } })

/-! ### The wire units -/

/-- R162, R81, R82, R92: at a unit boundary where all bytes of a unit are present, the unit appends its meaning, adds its
length to `total`, and advances the cursor by the unit's bytes, `dstate` staying `Literal`; a finite `TOTAL_W` must hold the
sum (R182). That `RUN` and `ESC1` leave their count in `cnt`, as `DEC.CNT` does, is the model's reading, log entry 15. -/
def Obligations.UnitsAppendTheirMeaning : Prop :=
  ∀ (s : State) (front rest : List Byte), s.dec.phase = .run → s.dec.dstate = .literal →
    s.dec.src.ipos = front.length →
    (∀ b : Byte, b ≠ 0x00 → s.dec.src.bytes = front ++ b :: rest → s.cfg.holds (s.dec.total + 1) →
      exec (.lit b) s = .next { s with dec := { s.dec with
        sink := s.dec.sink.emitAll [b], total := s.dec.total + 1
        src := { s.dec.src with ipos := s.dec.src.ipos + 1 } } }) ∧
    (∀ n v : Byte, n ≠ 0x00 → s.dec.src.bytes = front ++ 0x00 :: n :: v :: rest →
      s.cfg.holds (s.dec.total + n.toNat) →
      exec (.run n v) s = .next { s with dec := { s.dec with
        sink := s.dec.sink.emitAll (List.replicate n.toNat v), total := s.dec.total + n.toNat, cnt := n
        src := { s.dec.src with ipos := s.dec.src.ipos + 3 } } }) ∧
    (s.dec.src.bytes = front ++ 0x00 :: 0x01 :: 0x00 :: rest → s.cfg.holds (s.dec.total + 1) →
      exec .esc1 s = .next { s with dec := { s.dec with
        sink := s.dec.sink.emitAll [0x00], total := s.dec.total + 1, cnt := 1
        src := { s.dec.src with ipos := s.dec.src.ipos + 3 } } })

/-- R86, R153, R156: the illegal encoding `00 00` at a unit boundary raises `CorruptData` at its second byte: the escape byte
has been consumed, nothing is appended, and whatever byte follows is never looked at. That one step does what `DEC.ESC` and
`DEC.CNT0` do in turn is the model's choice, log entry 15: R162 gives a fused form only to the units whose count is not 0. -/
def Obligations.IllegalUnitFaultsAtTheCount : Prop :=
  ∀ (s : State) (front rest : List Byte), s.dec.phase = .run → s.dec.dstate = .literal →
    s.dec.src.ipos = front.length → s.dec.src.bytes = front ++ 0x00 :: 0x00 :: rest →
    exec .illegal s = .next { s with dec := { s.dec with
      dstate := .readingCount, src := { s.dec.src with ipos := s.dec.src.ipos + 1 }
      err := .corruptData, phase := .fault } }

/-- R162: a unit is the composition of its token steps, whatever the outcome of the last one (a refusal where a finite
`TOTAL_W` is too small included). That `00 00` is taken as a unit too is the model's choice, log entry 15. -/
def Obligations.UnitsAreTheirTokenSteps : Prop :=
  ∀ (s : State) (front rest : List Byte), s.dec.phase = .run → s.dec.dstate = .literal →
    s.dec.src.ipos = front.length →
    (∀ b : Byte, b ≠ 0x00 → s.dec.src.bytes = front ++ b :: rest → exec (.lit b) s = exec (.decLit b) s) ∧
    (∀ n v : Byte, n ≠ 0x00 → s.dec.src.bytes = front ++ 0x00 :: n :: v :: rest →
      ∃ s1 s2, exec .decEsc s = .next s1 ∧ exec (.decCnt n) s1 = .next s2 ∧ exec (.run n v) s = exec (.decVal v) s2) ∧
    (s.dec.src.bytes = front ++ 0x00 :: 0x01 :: 0x00 :: rest → exec .esc1 s = exec (.run 1 0x00) s) ∧
    (s.dec.src.bytes = front ++ 0x00 :: 0x00 :: rest →
      ∃ s1, exec .decEsc s = .next s1 ∧ exec .illegal s = exec .decCnt0 s1)

/-! ### The sink, and what every instruction leaves unchanged -/

/-- R51, R54, R11: appending writes the bytes, in order and without a gap, from index `olen` on, moves `olen` by their number,
and changes no other address; the call's beginning is unchanged. -/
def Obligations.SinkAppendsInOrder : Prop :=
  ∀ (k : Sink) (bs : List Byte),
    (k.emitAll bs).olen = k.olen + bs.length ∧ (k.emitAll bs).base = k.base ∧
      (∀ j, j < bs.length → (k.emitAll bs).out.read (k.olen + j) = bs[j]?) ∧
      ∀ a, a < k.olen ∨ k.olen + bs.length ≤ a → (k.emitAll bs).out.read a = k.out.read a

/-- R20, R30, R50, R51, R60: what an encoder step or an emitter operation leaves unchanged where it gives a next state: the
decoder, the parameters, the host's side, the input stream, the call's beginning, every byte of the sink outside the bytes
the instruction appends (`appended`, which start at `olen`); and the cursor and the sink's length move by R60's counts. -/
def Obligations.EncoderFrame : Prop :=
  ∀ (i : Instr) (s t : State), i.agent = .enc → exec i s = .next t →
    t.dec = s.dec ∧ t.cfg = s.cfg ∧ t.host = s.host ∧ t.turns = s.turns ∧
      t.enc.src.bytes = s.enc.src.bytes ∧ t.enc.src.ipos = s.enc.src.ipos + consumed i ∧
      t.enc.sink.base = s.enc.sink.base ∧ t.enc.sink.olen = s.enc.sink.olen + (appended s i).length ∧
      (∀ j, j < (appended s i).length → t.enc.sink.out.read (s.enc.sink.olen + j) = (appended s i)[j]?) ∧
      ∀ a, a < s.enc.sink.olen ∨ s.enc.sink.olen + (appended s i).length ≤ a →
        t.enc.sink.out.read a = s.enc.sink.out.read a

/-- R20, R30, R50, R51, R60: the same for a decoder step or a unit. -/
def Obligations.DecoderFrame : Prop :=
  ∀ (i : Instr) (s t : State), i.agent = .dec → exec i s = .next t →
    t.enc = s.enc ∧ t.cfg = s.cfg ∧ t.host = s.host ∧ t.turns = s.turns ∧
      t.dec.src.bytes = s.dec.src.bytes ∧ t.dec.src.ipos = s.dec.src.ipos + consumed i ∧
      t.dec.sink.base = s.dec.sink.base ∧ t.dec.sink.olen = s.dec.sink.olen + (appended s i).length ∧
      (∀ j, j < (appended s i).length → t.dec.sink.out.read (s.dec.sink.olen + j) = (appended s i)[j]?) ∧
      ∀ a, a < s.dec.sink.olen ∨ s.dec.sink.olen + (appended s i).length ≤ a →
        t.dec.sink.out.read a = s.dec.sink.out.read a

/-- R21, R22, R24, R140: the only writers of the encoder's registers: `pend_valid` by `ENC.FIRST`; `pend` by `ENC.FIRST`,
`ENC.SINGLE`, `ENC.CAP`, `ENC.BREAK`; `run` by `ENC.START`, `ENC.EXTEND`, `ENC.CAP`, `ENC.BREAK`; `phase` by the three `END`
steps. The emitter writes none. -/
def Obligations.EncoderRegisterWriters : Prop :=
  ∀ (i : Instr) (s t : State), i.agent = .enc → exec i s = .next t →
    ((∀ b, i ≠ .encFirst b) → t.enc.pendValid = s.enc.pendValid) ∧
    ((∀ b, i ≠ .encFirst b ∧ i ≠ .encSingle b ∧ i ≠ .encCap b ∧ i ≠ .encBreak b) → t.enc.pend = s.enc.pend) ∧
    ((∀ b, i ≠ .encStart b ∧ i ≠ .encExtend b ∧ i ≠ .encCap b ∧ i ≠ .encBreak b) → t.enc.run = s.enc.run) ∧
    (i ≠ .encEndRun → i ≠ .encEndLit → i ≠ .encEndEmpty → t.enc.phase = s.enc.phase)

/-- R25 to R29: the only writers of the decoder's registers, a unit writing what its steps write: `total` by `DEC.LIT`,
`DEC.VAL` and the units `LIT`, `RUN`, `ESC1`; `cnt` by `DEC.CNT` and `RUN`, `ESC1`; `dstate` by `DEC.ESC`, `DEC.CNT`,
`DEC.VAL` and `00 00`; `phase` by the `END` steps, `DEC.CNT0` and `00 00`; `err` by `DEC.CNT0`, `00 00` and `DEC.END.T`. -/
def Obligations.DecoderRegisterWriters : Prop :=
  ∀ (i : Instr) (s t : State), i.agent = .dec → exec i s = .next t →
    ((∀ b n, i ≠ .decLit b ∧ i ≠ .decVal b ∧ i ≠ .lit b ∧ i ≠ .run n b) → i ≠ .esc1 → t.dec.total = s.dec.total) ∧
    ((∀ b n, i ≠ .decCnt b ∧ i ≠ .run n b) → i ≠ .esc1 → t.dec.cnt = s.dec.cnt) ∧
    ((∀ b, i ≠ .decCnt b ∧ i ≠ .decVal b) → i ≠ .decEsc → i ≠ .illegal → t.dec.dstate = s.dec.dstate) ∧
    (i ≠ .decEndL → i ≠ .decEndT → i ≠ .decCnt0 → i ≠ .illegal → t.dec.phase = s.dec.phase) ∧
    (i ≠ .decEndT → i ≠ .decCnt0 → i ≠ .illegal → t.dec.err = s.dec.err)

/-- R213, R216, R211: an instruction that leaves the decoder in `Fault`, where it was not, is `DEC.CNT0`, `00 00`, or
`DEC.END.T` under `TRUNC_POLICY = error`, and `err` is then `CorruptData`; no instruction writes `InvalidArgument` (R212). -/
def Obligations.OnlyZeroCountOrTruncationFaults : Prop :=
  ∀ (i : Instr) (s t : State), exec i s = .next t →
    (s.dec.phase ≠ .fault → t.dec.phase = .fault →
      (i = .decCnt0 ∨ i = .illegal ∨ (i = .decEndT ∧ s.cfg.trunc = .error)) ∧ t.dec.err = .corruptData) ∧
    (s.dec.err ≠ .invalidArgument → t.dec.err ≠ .invalidArgument)

/-! ### Selection, decoding, stepping -/

/-- R110: in phase `Run`, in every state the encoder's invariant allows and on every token, exactly one encoder step has an
effect; it is the one `decodeEncStep` names. -/
def Obligations.ExactlyOneEncoderStep : Prop :=
  ∀ (s : State), s.enc.Inv → s.enc.phase = .run →
    ∃ i tok, s.enc.src.token = some tok ∧ decodeEncStep s.enc.pendValid s.enc.pend s.enc.run tok = .ok i ∧
      i.group = .encStep ∧ (∃ t, exec i s = .next t) ∧
      ∀ j t, j.group = .encStep → exec j s = .next t → j = i

/-- R151: in phase `Run`, with the cursor in the stream, exactly one decoder step has an effect on the token, the one
`decodeDecStep` names; a finite `TOTAL_W` must have room for the bytes of one step (R182). -/
def Obligations.ExactlyOneDecoderStep : Prop :=
  ∀ (s : State), s.dec.phase = .run → s.dec.src.ipos ≤ s.dec.src.bytes.length → s.cfg.holds (s.dec.total + 255) →
    ∃ tok, s.dec.src.token = some tok ∧ (decodeDecStep s.dec.dstate tok).group = .decStep ∧
      (∃ t, exec (decodeDecStep s.dec.dstate tok) s = .next t) ∧
      ∀ j t, j.group = .decStep → exec j s = .next t → j = decodeDecStep s.dec.dstate tok

/-- R12, R94, R162, R224: a step runs the instruction the token and the registers select. A queued token event is taken off
the queue and the agent's step is executed; a queued unit event executes the unit at the cursor, and the decoder's token step
where it is not at a unit boundary or no whole unit is there; with no event queued a live agent's step is executed, the free
choice being counted where there is one. (The event queue, the free choice and the unit event are the model's own, log
entries 5, 6 and 15.) -/
def Obligations.StepRunsTheSelectedInstruction : Prop :=
  ∀ (s : State) (rest : List HostEvent) (i : Instr),
    (∀ tok, s.host = .token .enc :: rest → s.enc.phase = .run → s.enc.src.token = some tok →
      decodeEncStep s.enc.pendValid s.enc.pend s.enc.run tok = .ok i → step s = exec i { s with host := rest }) ∧
    (∀ tok, s.host = .token .dec :: rest → s.dec.phase = .run → s.dec.src.token = some tok →
      decodeDecStep s.dec.dstate tok = i → step s = exec i { s with host := rest }) ∧
    (∀ more, s.host = .unit :: rest → s.dec.phase = .run → s.dec.dstate = .literal →
      decodeUnit (s.dec.src.bytes.drop s.dec.src.ipos) = .ok (i, more) → step s = exec i { s with host := rest }) ∧
    (∀ tok, s.host = .unit :: rest → s.dec.phase = .run → s.dec.src.token = some tok →
      (s.dec.dstate ≠ .literal ∨ ∀ j more, decodeUnit (s.dec.src.bytes.drop s.dec.src.ipos) ≠ .ok (j, more)) →
      decodeDecStep s.dec.dstate tok = i → step s = exec i { s with host := rest }) ∧
    (∀ tok, s.host = [] → s.enc.phase = .run → s.dec.phase ≠ .run → s.enc.src.token = some tok →
      decodeEncStep s.enc.pendValid s.enc.pend s.enc.run tok = .ok i → step s = exec i s) ∧
    (∀ tok, s.host = [] → s.enc.phase = .done → s.dec.phase = .run → s.dec.src.token = some tok →
      decodeDecStep s.dec.dstate tok = i → step s = exec i s) ∧
    (∀ tok tok' j, s.host = [] → s.enc.phase = .run → s.dec.phase = .run → s.enc.src.token = some tok →
      decodeEncStep s.enc.pendValid s.enc.pend s.enc.run tok = .ok i → s.dec.src.token = some tok' →
      decodeDecStep s.dec.dstate tok' = j →
      step s = match Config.freeTurn s.turns with
        | .enc => exec i { s with turns := s.turns + 1 }
        | .dec => exec j { s with turns := s.turns + 1 })

/-- R81, R82, R86, R92, R110, R151 on words written out bit by bit: one of each wire form, and step rows. That stream byte 0
is a word's most significant byte, and that the one-byte word `00` is read as `DEC.ESC`, is log entry 13; that `00 01 00` is
read under the name `ESC1` is the model's choice, log entry 10. -/
def Obligations.WordsDecodeToTheirInstructions : Prop :=
  decodeTableWord 8 0b01000001 = some (.lit 0x41) ∧
    decodeTableWord 24 0b000000000000001101000010 = some (.run 3 0x42) ∧
    decodeTableWord 24 0b000000000000000100000000 = some .esc1 ∧
    decodeTableWord 16 0b0000000000000000 = some .illegal ∧
    decodeTableWord 8 0b00000000 = some .decEsc ∧
    decodeDecStep .readingCount (.byte 0b00000011) = .decCnt 3 ∧
    decodeDecStep .readingValue (.byte 0b00000000) = .decVal 0x00 ∧
    decodeEncStep true 0x41 254 (.byte 0b01000001) = .ok (.encCap 0x41) ∧
    encode (.emitRun 0x41 3) = [0b00000000, 0b00000011, 0b01000001]

/-- R84, R85, R92, R143: decoding the bytes of a well-formed unit, whatever follows it, gives the unit back with every operand
and leaves what follows; `RUN 1, 0x00` is read under its name `ESC1`. What the emitter writes is read back likewise. -/
def Obligations.UnitsDecodeAsEncoded : Prop :=
  (∀ (i : Instr) (rest : List Byte), i.group = .wireUnit → i.wellFormed = true →
    decodeUnit (encode i ++ rest) = .ok (unitName i, rest)) ∧
  (∀ (n v : Byte), unitName (.run n v) = if n = 1 ∧ v = 0x00 then .esc1 else .run n v) ∧
  (∀ (x n : Byte) (rest : List Byte), 2 ≤ n.toNat →
    decodeUnit (encode (.emitRun x n) ++ rest) = .ok (.run n x, rest)) ∧
  (∀ (x : Byte) (rest : List Byte),
    decodeUnit (encode (.emitLiteral x) ++ rest) = .ok (if x = 0x00 then .esc1 else .lit x, rest))

/-- R84 to R88: what the unit decoder reads was exactly the bytes of a well-formed unit; and it reads one from every byte
sequence but the empty one and the two truncated forms of R87. -/
def Obligations.UnitDecodingIsSound : Prop :=
  (∀ (bs : List Byte) (i : Instr) (rest : List Byte), decodeUnit bs = .ok (i, rest) →
    bs = encode i ++ rest ∧ i.group = .wireUnit ∧ i.wellFormed = true) ∧
  ∀ bs : List Byte, (∀ i rest, decodeUnit bs ≠ .ok (i, rest)) ↔
    (bs = [] ∨ bs = [0x00] ∨ ∃ n : Byte, n ≠ 0x00 ∧ bs = [0x00, n])

/-- R94, R95, R110, R151: a step row is selected only on its own token, by its own agent, with operands the row allows, and
every well-formed step row is selected in some state by the token its encoding is. -/
def Obligations.StepRowsReadTheirTokens : Prop :=
  (∀ ds tok, (decodeDecStep ds tok).token = some tok ∧ (decodeDecStep ds tok).group = .decStep ∧
    (decodeDecStep ds tok).wellFormed = true ∧ encode (decodeDecStep ds tok) = tok.bytes) ∧
  (∀ pv pend run tok i, decodeEncStep pv pend run tok = .ok i →
    i.token = some tok ∧ i.group = .encStep ∧ encode i = tok.bytes) ∧
  (∀ i : Instr, i.group = .decStep → i.wellFormed = true → ∃ ds tok, decodeDecStep ds tok = i) ∧
  (∀ i : Instr, i.group = .encStep → ∃ pv pend run tok, decodeEncStep pv pend run tok = .ok i)

/-! ### Reset, launch, refusal, fault -/

/-- R36, R7, R23, R37: the machine after reset: each register at the value the spec gives it (for `pend` and `cnt` it gives
none, and nothing is said of them), the OPEN parameters at R7's and D7's defaults; and it meets every invariant below. That
the sinks start in canonical form rests on their starting empty, the model's choice (log entry 3). -/
def Obligations.ResetStateMeetsTheInvariant : Prop :=
  State.reset.enc.fresh ∧ State.reset.dec.fresh ∧ State.reset.cfg.trunc = .drop ∧ State.reset.cfg.totalW = none ∧
    State.reset.Inv ∧ State.reset.enc.Tracks ∧
    Memory.wf State.reset.enc.sink.out ∧ Memory.wf State.reset.dec.sink.out

/-- R36, R240: reset of an agent, in any phase, makes a fresh call on its streams, leaves `OUT` and `olen` as they are, and
touches nothing of the other agent. -/
def Obligations.ResetStartsACall : Prop :=
  ∀ (s : State) (rest : List HostEvent),
    (s.host = .reset .enc :: rest → ∃ t, step s = .next t ∧ t.enc.fresh ∧ t.enc.src.bytes = s.enc.src.bytes ∧
      t.enc.sink.out = s.enc.sink.out ∧ t.enc.sink.olen = s.enc.sink.olen ∧ t.dec = s.dec ∧ t.cfg = s.cfg ∧
      t.host = rest) ∧
    (s.host = .reset .dec :: rest → ∃ t, step s = .next t ∧ t.dec.fresh ∧ t.dec.src.bytes = s.dec.src.bytes ∧
      t.dec.sink.out = s.dec.sink.out ∧ t.dec.sink.olen = s.dec.sink.olen ∧ t.enc = s.enc ∧ t.cfg = s.cfg ∧
      t.host = rest)

/-- R245 (1), (2), R36, R57: a launch of either agent, on a stream of its own or on the finished output of the encoder's call
(whose bytes are copied, log entry 22), gives the agent that stream and resets it. The sink is the one it had, unchanged, or
one of the call's own, which holds exactly what the host says, from index 0; the other agent and the parameters are kept. -/
def Obligations.LaunchStartsACall : Prop :=
  ∀ (s : State) (rest : List HostEvent) (input : InputArg) (bytes : List Byte) (k : SinkArg),
    (input = .own bytes ∨ (input = .encoderOutput ∧ s.enc.phase = .done ∧ bytes = s.enc.sink.output)) →
    (k = .kept ∨ ∃ contents, k = .own contents) →
    (s.host = .launch { agent := .enc, input := input, sink := k } :: rest →
      ∃ t, step s = .next t ∧ t.enc.fresh ∧ t.enc.src.bytes = bytes ∧
        (k = .kept → t.enc.sink.out = s.enc.sink.out ∧ t.enc.sink.olen = s.enc.sink.olen) ∧
        (∀ contents, k = .own contents →
          t.enc.sink.olen = contents.length ∧ ∀ a, t.enc.sink.out.read a = contents[a]?) ∧
        t.dec = s.dec ∧ t.cfg = s.cfg ∧ t.turns = s.turns ∧ t.host = rest) ∧
    (s.host = .launch { agent := .dec, input := input, sink := k } :: rest →
      ∃ t, step s = .next t ∧ t.dec.fresh ∧ t.dec.src.bytes = bytes ∧
        (k = .kept → t.dec.sink.out = s.dec.sink.out ∧ t.dec.sink.olen = s.dec.sink.olen) ∧
        (∀ contents, k = .own contents →
          t.dec.sink.olen = contents.length ∧ ∀ a, t.dec.sink.out.read a = contents[a]?) ∧
        t.enc = s.enc ∧ t.cfg = s.cfg ∧ t.turns = s.turns ∧ t.host = rest)

/-- R247 (c), (d), R212, R216, R57: the launches the spec gives no meaning are refused by name, the absent sink before
anything else; an input without meaning is refused with either of the sinks that have one. -/
def Obligations.MeaninglessLaunchesAreRefused : Prop :=
  ∀ (s : State) (rest : List HostEvent) (a : Agent) (input : InputArg) (k : SinkArg),
    (s.host = .launch { agent := a, input := input, sink := .absent } :: rest → step s = .refused .noSink) ∧
    (s.host = .launch { agent := a, input := input, sink := .sharedWithLive } :: rest →
      step s = .refused .sharedStream) ∧
    (s.host = .launch { agent := a, input := input, sink := .aliasedToInput } :: rest →
      step s = .refused .aliasedStreams) ∧
    (s.host = .launch { agent := a, input := input, sink := .canFail } :: rest → step s = .refused .failingSink) ∧
    ((k = .kept ∨ ∃ contents, k = .own contents) →
      (s.host = .launch { agent := a, input := .sharedWithLive, sink := k } :: rest → step s = .refused .sharedStream) ∧
      (s.host = .launch { agent := a, input := .encoderOutput, sink := k } :: rest → s.enc.phase = .run →
        step s = .refused .streamNotFinished)) ∧
    ({ agent := a, input := input, sink := .absent } : Launch).wrapperError = .invalidArgument ∧
    (k ≠ .absent → ({ agent := a, input := input, sink := k } : Launch).wrapperError = .none)

/-- R247 (a), (b), R24, R27, R215: an agent whose call is over takes no step: every instruction of it is refused, and so is a
token, or to the decoder a unit, that the host offers it; with both calls over and no event queued the machine has no step. -/
def Obligations.AnOverCallTakesNoStep : Prop :=
  (∀ (i : Instr) (s : State), i.agent = .enc → s.enc.phase = .done → exec i s = .refused .callOver) ∧
  (∀ (i : Instr) (s : State), i.agent = .dec → s.dec.phase ≠ .run → exec i s = .refused .callOver) ∧
  (∀ (s : State) (rest : List HostEvent), s.host = .token .enc :: rest → s.enc.phase = .done →
    step s = .refused .callOver) ∧
  (∀ (s : State) (rest : List HostEvent), s.host = .token .dec :: rest ∨ s.host = .unit :: rest → s.dec.phase ≠ .run →
    step s = .refused .callOver) ∧
  (∀ s : State, s.host = [] → s.enc.phase = .done → s.dec.phase ≠ .run → step s = .refused .callOver)

/-- R215, R28, R246: the record of a call that is over is stable: a step changes it only by a reset or a launch of that agent;
so `err` is sticky and the only way out of `Fault` is reset. -/
def Obligations.AnOverCallIsStableUntilReset : Prop :=
  ∀ s t : State, step s = .next t →
    (s.dec.phase ≠ .run → t.dec = s.dec ∨
      ∃ rest, s.host = .reset .dec :: rest ∨ ∃ l : Launch, l.agent = .dec ∧ s.host = .launch l :: rest) ∧
    (s.enc.phase ≠ .run → t.enc = s.enc ∨
      ∃ rest, s.host = .reset .enc :: rest ∨ ∃ l : Launch, l.agent = .enc ∧ s.host = .launch l :: rest)

/-- R182, R247 (f): with a finite `TOTAL_W`, a decoder step that would bring `total` to `2^TOTAL_W` is refused by name. And
these are all the stops there are in phase `Run` (their names are the model's, log entries 8, 11 and 14): with the cursor in
the stream an instruction has its effect, or its row does not select it, or `total` would not fit; beyond the end of the
stream, where R50 has no byte, a step faults; and an instruction with operands its row does not allow never has an effect. -/
def Obligations.StopsAreNamed : Prop :=
  (∀ (s : State) (w : Nat) (b : Byte), s.cfg.totalW = some w → s.dec.phase = .run → s.dec.src.token = some (.byte b) →
    (s.dec.dstate = .literal → b ≠ 0x00 → 2 ^ w ≤ s.dec.total + 1 → exec (.decLit b) s = .refused .totalOverflow) ∧
    (s.dec.dstate = .readingValue → 2 ^ w ≤ s.dec.total + s.dec.cnt.toNat →
      exec (.decVal b) s = .refused .totalOverflow)) ∧
  ∀ (i : Instr) (s : State),
    (i.wellFormed = false → ∀ t, exec i s ≠ .next t) ∧
    (i.agent = .enc → s.enc.phase = .run → s.enc.src.ipos ≤ s.enc.src.bytes.length →
      (∃ t, exec i s = .next t) ∨ exec i s = .refused .notSelected) ∧
    (i.agent = .dec → s.dec.phase = .run → s.dec.src.ipos ≤ s.dec.src.bytes.length →
      (∃ t, exec i s = .next t) ∨ exec i s = .refused .notSelected ∨
        (exec i s = .refused .totalOverflow ∧ ∃ w, s.cfg.totalW = some w ∧ 2 ^ w ≤ s.dec.total + 255)) ∧
    (i.group = .encStep → s.enc.phase = .run → s.enc.src.bytes.length < s.enc.src.ipos →
      exec i s = .fault .cursorPastEnd) ∧
    (i.agent = .dec → s.dec.phase = .run → s.dec.src.bytes.length < s.dec.src.ipos →
      exec i s = .fault .cursorPastEnd)

/-- R25, R27, R28, R32, R33: the status view: the numeric values of `phase`, `dstate` and `err`, every field read from the
state, and the result only in `Done`. -/
def Obligations.StatusViewShowsTheState : Prop :=
  (∀ e : Enc, e.status.pend = e.pend ∧ e.status.run = e.run ∧ (e.status.pendValid = 1 ↔ e.pendValid = true) ∧
    (e.status.phase = 0 ↔ e.phase = .run) ∧ (e.status.phase = 1 ↔ e.phase = .done)) ∧
  ∀ d : Dec, d.status.cnt = d.cnt ∧ d.status.total = d.total ∧
    (d.status.phase = 0 ↔ d.phase = .run) ∧ (d.status.phase = 1 ↔ d.phase = .done) ∧
    (d.status.phase = 2 ↔ d.phase = .fault) ∧
    (d.status.dstate = 0 ↔ d.dstate = .literal) ∧ (d.status.dstate = 1 ↔ d.dstate = .readingCount) ∧
    (d.status.dstate = 2 ↔ d.dstate = .readingValue) ∧
    (d.status.err = 0 ↔ d.err = .none) ∧ (d.status.err = 1 ↔ d.err = .corruptData) ∧
    (d.status.err = 2 ↔ d.err = .invalidArgument) ∧
    (d.result.isSome = true ↔ d.phase = .done)

/-! ### Invariants -/

/-- R23, R26, R28, R29, R37: every step, whatever the host does, keeps the invariant of both agents. -/
def Obligations.EveryStepKeepsTheInvariant : Prop :=
  ∀ s t : State, s.Inv → step s = .next t → t.Inv

/-- R121, R250: every step keeps what the encoder has emitted and what it holds in step with its input: in `Run` the output
is the canonical encoding of the input up to the held symbols, in `Done` of all of it. -/
def Obligations.EveryStepKeepsTheOutputCanonical : Prop :=
  ∀ s t : State, s.Inv → s.enc.Tracks → step s = .next t → t.enc.Tracks

/-- R181, R183: no 8-bit quantity wraps: in every state of the invariant the count byte is `run + 1`, at least 1 and never 0
by wrap, and every `run` a step writes is at most 254. -/
def Obligations.NoCountByteWraps : Prop :=
  ∀ s : State, s.Inv → s.enc.countByte.toNat = s.enc.run.toNat + 1 ∧ s.enc.countByte ≠ 0x00 ∧
    ∀ t, step s = .next t → t.enc.run.toNat ≤ 254

/-- R120, R211: the encoder never fails: in a live call of the invariant, the next token's step gives a next state, on every
byte and on `END`, and the decoder's `err` is untouched. -/
def Obligations.TheEncoderNeverFails : Prop :=
  ∀ (s : State) (rest : List HostEvent), s.enc.Inv → s.enc.phase = .run → s.host = .token .enc :: rest →
    ∃ t, step s = .next t ∧ t.dec = s.dec

/-! ### Independence of the agents -/

/-- R20: neither agent reads the other's record: an instruction's outcome and what it writes depend on its own agent's record
(and, for the decoder, on the parameters) alone. -/
def Obligations.AgentsReadOnlyTheirOwnRecord : Prop :=
  (∀ (i : Instr) (s s' t : State), i.agent = .enc → s'.enc = s.enc → exec i s = .next t →
    exec i s' = .next { s' with enc := t.enc }) ∧
  ∀ (i : Instr) (s s' t : State), i.agent = .dec → s'.dec = s.dec → s'.cfg = s.cfg → exec i s = .next t →
    exec i s' = .next { s' with dec := t.dec }

/-- R224: every schedule of the same token events gives the same final state: if one order of the events runs through, every
other order does, to the same state. -/
def Obligations.EveryScheduleEndsTheSame : Prop :=
  ∀ (s t : State) (l l' : List HostEvent), l.Perm l' → (∀ e ∈ l, ∃ a, e = .token a) →
    Host.Core.run Sys2Proof.core l.length { s with host := l } = .next t →
    Host.Core.run Sys2Proof.core l'.length { s with host := l' } = .next t

/-! ### The codec as two functions -/

/-- R187, R245, R248: an encoder call. From a fresh call on `stream`, `len + 1` tokens end it in `Done`, having appended
exactly what the reference program gives after what the sink held before, and touched nothing of the decoder. -/
def Obligations.EncodeCallIsTheReferenceProgram : Prop :=
  ∀ (s : State) (stream : List Byte) (rest : List HostEvent), s.enc.fresh → s.enc.src.bytes = stream →
    s.host = List.replicate (stream.length + 1) (.token .enc) ++ rest →
    ∃ t : State, Host.Core.run Sys2Proof.core (stream.length + 1) s = .next t ∧ t.enc.phase = .done ∧
      t.enc.sink.output = encodeRef stream ∧ t.enc.sink.base = s.enc.sink.olen ∧ t.enc.src.ipos = stream.length ∧
      (∀ a, a < s.enc.sink.olen → t.enc.sink.out.read a = s.enc.sink.out.read a) ∧
      t.dec = s.dec ∧ t.cfg = s.cfg ∧ t.host = rest

/-- R189, R214, R245, R248: a decoder call. From a fresh call on `stream`, it ends as the reference program does: in `Done`
after `len + 1` tokens with the program's output, total and `dstate`, or in `Fault` with `CorruptData` after `i + 1` tokens
with the cursor at the program's index `i`. At the fault every token before index `i` has been executed: the output, `total`
and `dstate` are those of the program on the first `i` bytes under `drop`, which always end inside a descriptor; what was
appended stays, and there is no result. What the sink held before the call is unchanged. A finite `TOTAL_W` must hold that
total (R182). -/
def Obligations.DecodeCallIsTheReferenceProgram : Prop :=
  ∀ (s : State) (stream : List Byte) (rest : List HostEvent), s.dec.fresh → s.dec.src.bytes = stream →
    (∀ out total ds, decodeRef s.cfg.trunc stream = .done out total ds → s.cfg.holds total →
      s.host = List.replicate (stream.length + 1) (.token .dec) ++ rest →
      ∃ t : State, Host.Core.run Sys2Proof.core (stream.length + 1) s = .next t ∧ t.dec.phase = .done ∧
        t.dec.err = .none ∧ t.dec.sink.output = out ∧ t.dec.result = some total ∧ t.dec.dstate = ds ∧
        t.dec.sink.base = s.dec.sink.olen ∧
        (∀ a, a < s.dec.sink.olen → t.dec.sink.out.read a = s.dec.sink.out.read a) ∧
        t.enc = s.enc ∧ t.cfg = s.cfg ∧ t.host = rest) ∧
    (∀ i out total ds, decodeRef s.cfg.trunc stream = .corrupt i →
      decodeRef .drop (stream.take i) = .done out total ds → s.cfg.holds total →
      s.host = List.replicate (i + 1) (.token .dec) ++ rest →
      ∃ t : State, Host.Core.run Sys2Proof.core (i + 1) s = .next t ∧ t.dec.phase = .fault ∧
        t.dec.err = .corruptData ∧ t.dec.src.ipos = i ∧ t.dec.result = none ∧
        t.dec.sink.output = out ∧ t.dec.total = total ∧ t.dec.dstate = ds ∧
        t.dec.sink.base = s.dec.sink.olen ∧
        (∀ a, a < s.dec.sink.olen → t.dec.sink.out.read a = s.dec.sink.out.read a) ∧
        t.enc = s.enc ∧ t.cfg = s.cfg ∧ t.host = rest) ∧
    ∀ i, decodeRef s.cfg.trunc stream = .corrupt i →
      ∃ out total ds, ds ≠ .literal ∧ decodeRef .drop (stream.take i) = .done out total ds

/-- R188: the maximal runs are the one split of a sequence into non-empty runs whose neighbours differ, and the reference
encoder is the closed form on it: full descriptors first, then the tail, run by run. (R188 marks the closed form as derived.) -/
def Obligations.ReferenceEncoderIsTheClosedForm : Prop :=
  ∀ stream : List Byte,
    (∀ runs : List (Byte × Nat), runs = maximalRuns stream ↔
      (runs.flatMap fun r => List.replicate r.2 r.1) = stream ∧ (∀ r ∈ runs, 1 ≤ r.2) ∧
        List.IsChain (fun x y => x.1 ≠ y.1) runs) ∧
    encodeRef stream = (maximalRuns stream).flatMap fun r => chunk r.1 r.2

/-- R190: the round trip, under either policy: decoding an encoding gives the stream, its length as the count, and ends in
`Literal`. -/
def Obligations.DecodeUndoesEncode : Prop :=
  ∀ (policy : TruncPolicy) (stream : List Byte),
    decodeRef policy (encodeRef stream) = .done stream stream.length .literal

/-- R190, R57, R246: the round trip on the machine. A fresh encoder call on `stream`, the hand-over of its finished output to
the decoder, and the decoder's call on it, run by the host's events from any state, end with the decoder `Done` in
`Literal`, no error, exactly `stream` appended and `len(stream)` as the result, under either policy. -/
def Obligations.MachineRoundTrip : Prop :=
  ∀ (s : State) (stream : List Byte) (rest : List HostEvent), s.enc.fresh → s.enc.src.bytes = stream →
    s.cfg.holds stream.length →
    s.host = List.replicate (stream.length + 1) (.token .enc) ++
      .launch { agent := .dec, input := .encoderOutput, sink := .kept } ::
        (List.replicate ((encodeRef stream).length + 1) (.token .dec) ++ rest) →
    ∃ t : State,
      Host.Core.run Sys2Proof.core (stream.length + 1 + (1 + ((encodeRef stream).length + 1))) s = .next t ∧
        t.dec.phase = .done ∧ t.dec.dstate = .literal ∧ t.dec.err = .none ∧ t.dec.sink.output = stream ∧
        t.dec.result = some stream.length ∧ t.enc.phase = .done ∧ t.host = rest

/-- R191: a sequence with no two equal neighbours and no escape byte is encoded as itself. -/
def Obligations.MinimalInputIsUnchanged : Prop :=
  ∀ stream : List Byte, List.IsChain (fun x y => x ≠ y) stream → 0x00 ∉ stream → encodeRef stream = stream

/-- R192, R188: 255 equal bytes are one descriptor; 256 are a full descriptor and a literal, 4 bytes, or 6 for the escape
symbol, and decode to what they were. The source says "two descriptors" of the 256; that the second is a literal unless the
value is the escape symbol follows from R188, as R192 and conflict C2 have it. -/
def Obligations.RunsSplitAt255 : Prop :=
  ∀ v : Byte,
    encodeRef (List.replicate 255 v) = [0x00, 0xFF, v] ∧
      (v ≠ 0x00 → encodeRef (List.replicate 256 v) = [0x00, 0xFF, v, v]) ∧
      (v = 0x00 → encodeRef (List.replicate 256 v) = [0x00, 0xFF, 0x00, 0x00, 0x01, 0x00]) ∧
      ∀ policy, decodeRef policy (encodeRef (List.replicate 256 v)) = .done (List.replicate 256 v) 256 .literal

/-- R193, R188: the length of an encoding, run by run; it is at most three times that of its input, and exactly so only for
the empty input and `00`. (An inference the spec marks as its own: R193 ends "[derived: from rule R188]".) -/
def Obligations.EncodingAtMostTriples : Prop :=
  ∀ stream : List Byte,
    (encodeRef stream).length = ((maximalRuns stream).map fun r =>
      3 * (r.2 / 255) + if r.2 % 255 = 0 then 0 else if r.2 % 255 = 1 ∧ r.1 ≠ 0x00 then 1 else 3).sum ∧
    (encodeRef stream).length ≤ 3 * stream.length ∧
    ((encodeRef stream).length = 3 * stream.length ↔ stream = [] ∨ stream = [0x00])

/-- R61, R60: an encoder instruction appends at most 3 bytes and a decoder instruction at most 255; an encoding is at most three
times as long as its input (R193); a decode's total is the length of its output (R29), of which 255 bytes cost three input
bytes and one costs at least one. (The bounds on whole calls are inferences the spec marks as its own: R61's on a decode
"[derived: from rule R60, ...]", R193's from R188, R29's invariant from the two steps that append.) -/
def Obligations.OutputIsBounded : Prop :=
  (∀ (i : Instr) (s t : State), exec i s = .next t →
    (i.agent = .enc → t.enc.sink.olen ≤ s.enc.sink.olen + 3) ∧
    (i.agent = .dec → t.dec.sink.olen ≤ s.dec.sink.olen + 255)) ∧
  (∀ stream : List Byte, (encodeRef stream).length ≤ 3 * stream.length) ∧
  ∀ (policy : TruncPolicy) (stream out : List Byte) (total : Nat) (ds : DState),
    decodeRef policy stream = .done out total ds →
    total = out.length ∧ out.length ≤ 255 * (stream.length / 3) + stream.length % 3

/-- R85, R87, R88, R160, R189: every stream is of exactly one class, and decodes as its class says: a well-formed one to the
meanings of its units, a corrupt one to `CorruptData` at its first zero count, a truncated one by the policy, its complete
units decoded. -/
def Obligations.StreamsDecodeByTheirClass : Prop :=
  ∀ stream : List Byte,
    (∀ us, classify stream = .wellFormed us → stream = us.flatMap encode ∧ ∀ policy,
      decodeRef policy stream = .done (us.flatMap unitMeaning) (us.flatMap unitMeaning).length .literal) ∧
    (∀ i, classify stream = .corrupt i → ∀ policy, decodeRef policy stream = .corrupt i) ∧
    (∀ us, classify stream = .truncated us →
      (∃ ds, ds ≠ .literal ∧
        decodeRef .drop stream = .done (us.flatMap unitMeaning) (us.flatMap unitMeaning).length ds) ∧
      decodeRef .error stream = .corrupt stream.length)

/-- R197, R189, R190: decoding distributes over concatenation after a well-formed stream: outputs join, totals add, a fault's
index moves by the first stream's length. Encoding does not distribute, but the concatenation of two encodings always decodes
to that of the inputs. (An inference the spec marks as its own: R197 ends "[derived: from rule R189 and rule R190]".) -/
def Obligations.DecodingDistributes : Prop :=
  (∀ (policy : TruncPolicy) (x y : List Byte) (us : List Instr), classify x = .wellFormed us →
    (∀ out total ds, decodeRef policy y = .done out total ds →
      decodeRef policy (x ++ y) =
        .done (us.flatMap unitMeaning ++ out) ((us.flatMap unitMeaning).length + total) ds) ∧
    (∀ i, decodeRef policy y = .corrupt i → decodeRef policy (x ++ y) = .corrupt (x.length + i))) ∧
  encodeRef [0x41] ++ encodeRef [0x41] = [0x41, 0x41] ∧ encodeRef [0x41, 0x41] = [0x00, 0x02, 0x41] ∧
  ∀ (policy : TruncPolicy) (a b : List Byte),
    decodeRef policy (encodeRef a ++ encodeRef b) = .done (a ++ b) (a.length + b.length) .literal

/-- R198, R199, R143: the streams the encoder writes are well-formed and are exactly those the recogniser of R199 accepts;
and encoding what such a stream decodes to gives the stream back, of no other. -/
def Obligations.CanonicalStreamsAreRecognised : Prop :=
  ∀ stream : List Byte,
    ((∃ input, encodeRef input = stream) ↔ ∃ us, classify stream = .wellFormed us ∧ canonicalUnits us = true) ∧
    ∀ us, classify stream = .wellFormed us →
      (encodeRef (us.flatMap unitMeaning) = stream ↔ canonicalUnits us = true)
end

