-- ==== Sys2Proof/Laws/PerInstr.lean ====
section
/-!
SUPPORT. One statement per instruction, said of it as syntax: its encoding is as long as spec/30_encoding.md R84 and R95 (and,
for the emitter, spec/41_encoder_emit.md R141 and R142) say.
-/

namespace Sys2Proof.Laws

/-- The bytes of a row are as many as its format says. -/
def EncodedLength.Statement (i : Instr) : Prop := (encode i).length = encodedLength i

theorem EncodedLength.lit (b : Byte) : EncodedLength.Statement (.lit b) := rfl
theorem EncodedLength.run (n v : Byte) : EncodedLength.Statement (.run n v) := rfl
theorem EncodedLength.esc1 : EncodedLength.Statement .esc1 := rfl
theorem EncodedLength.illegal : EncodedLength.Statement .illegal := rfl
theorem EncodedLength.decLit (b : Byte) : EncodedLength.Statement (.decLit b) := rfl
theorem EncodedLength.decEsc : EncodedLength.Statement .decEsc := rfl
theorem EncodedLength.decCnt (b : Byte) : EncodedLength.Statement (.decCnt b) := rfl
theorem EncodedLength.decCnt0 : EncodedLength.Statement .decCnt0 := rfl
theorem EncodedLength.decVal (b : Byte) : EncodedLength.Statement (.decVal b) := rfl
theorem EncodedLength.decEndL : EncodedLength.Statement .decEndL := rfl
theorem EncodedLength.decEndT : EncodedLength.Statement .decEndT := rfl
theorem EncodedLength.encFirst (b : Byte) : EncodedLength.Statement (.encFirst b) := rfl
theorem EncodedLength.encStart (b : Byte) : EncodedLength.Statement (.encStart b) := rfl
theorem EncodedLength.encSingle (b : Byte) : EncodedLength.Statement (.encSingle b) := rfl
theorem EncodedLength.encExtend (b : Byte) : EncodedLength.Statement (.encExtend b) := rfl
theorem EncodedLength.encCap (b : Byte) : EncodedLength.Statement (.encCap b) := rfl
theorem EncodedLength.encBreak (b : Byte) : EncodedLength.Statement (.encBreak b) := rfl
theorem EncodedLength.encEndRun : EncodedLength.Statement .encEndRun := rfl
theorem EncodedLength.encEndLit : EncodedLength.Statement .encEndLit := rfl
theorem EncodedLength.encEndEmpty : EncodedLength.Statement .encEndEmpty := rfl

theorem EncodedLength.emitLiteral (s : Byte) : EncodedLength.Statement (.emitLiteral s) := by
  rw [EncodedLength.Statement, encode, encodedLength, ite_not]
  split <;> rfl

theorem EncodedLength.emitRun (s n : Byte) : EncodedLength.Statement (.emitRun s n) := rfl

end Sys2Proof.Laws
end

