-- ==== Sys2Proof/Laws/Sink.lean ====
section
/-!
SUPPORT. What appending does to a sink, said once: the length, every address, the output, the invariant.
-/

namespace Sys2Proof.Machine

@[simp] theorem Sink.emit_olen (k : Sink) (b : Byte) : (k.emit b).olen = k.olen + 1 := rfl
@[simp] theorem Sink.emit_base (k : Sink) (b : Byte) : (k.emit b).base = k.base := rfl
@[simp] theorem Sink.emitAll_nil (k : Sink) : k.emitAll [] = k := rfl
@[simp] theorem Sink.emitAll_cons (k : Sink) (b : Byte) (bs : List Byte) :
    k.emitAll (b :: bs) = (k.emit b).emitAll bs := rfl
@[simp] theorem Sink.beginCall_out (k : Sink) : k.beginCall.out = k.out := rfl
@[simp] theorem Sink.beginCall_olen (k : Sink) : k.beginCall.olen = k.olen := rfl
@[simp] theorem Sink.beginCall_base (k : Sink) : k.beginCall.base = k.olen := rfl

theorem Sink.emitAll_append (k : Sink) (xs ys : List Byte) : k.emitAll (xs ++ ys) = (k.emitAll xs).emitAll ys := by
  induction xs generalizing k with
  | nil => rfl
  | cons b xs ih => exact ih (k.emit b)

@[simp] theorem Sink.emitAll_olen (k : Sink) (bs : List Byte) : (k.emitAll bs).olen = k.olen + bs.length := by
  induction bs generalizing k with
  | nil => rfl
  | cons b bs ih => simp [ih]; omega

@[simp] theorem Sink.emitAll_base (k : Sink) (bs : List Byte) : (k.emitAll bs).base = k.base := by
  induction bs generalizing k with
  | nil => rfl
  | cons b bs ih => simp [ih]

theorem Sink.read_emit (k : Sink) (b : Byte) (a : Nat) :
    (k.emit b).out.read a = if a = k.olen then some b else k.out.read a := by
  split
  · rename_i e
    rw [e]
    exact Memory.read_write_self ..
  · exact Memory.read_write_ne _ _ ‹_›

/-- Every address after appending: the appended byte where one landed, what was there before elsewhere. -/
theorem Sink.read_emitAll (k : Sink) (bs : List Byte) (a : Nat) :
    (k.emitAll bs).out.read a =
      if k.olen ≤ a ∧ a < k.olen + bs.length then bs[a - k.olen]? else k.out.read a := by
  induction bs generalizing k with
  | nil => rw [if_neg (by rintro ⟨h, h'⟩; simp at h'; omega)]; rfl
  | cons b bs ih =>
    rw [Sink.emitAll_cons, ih, Sink.read_emit, Sink.emit_olen, List.length_cons]
    by_cases h : k.olen + 1 ≤ a ∧ a < k.olen + 1 + bs.length
    · rw [if_pos h, if_pos (by omega), show a - k.olen = a - (k.olen + 1) + 1 by omega, List.getElem?_cons_succ]
    · rw [if_neg h]
      by_cases e : a = k.olen
      · rw [if_pos e, if_pos (by omega), show a - k.olen = 0 by omega]; rfl
      · rw [if_neg e, if_neg (by omega)]

/-- The call's output grows by exactly the appended byte. -/
theorem Sink.output_emit (k : Sink) (b : Byte) (h : k.base ≤ k.olen) : (k.emit b).output = k.output ++ [b] := by
  rw [Sink.output, Sink.output, Sink.emit_olen, Sink.emit_base, show k.olen + 1 - k.base = k.olen - k.base + 1 by omega,
    Memory.slice_succ, Sink.read_emit, if_pos (by omega), Memory.slice_congr fun i hi => ?_]
  · rfl
  · rw [Sink.read_emit, if_neg (by omega)]

/-- The call's output grows by exactly the appended bytes. -/
theorem Sink.output_emitAll (k : Sink) (bs : List Byte) (h : k.base ≤ k.olen) :
    (k.emitAll bs).output = k.output ++ bs := by
  induction bs generalizing k with
  | nil => simp
  | cons b bs ih => rw [Sink.emitAll_cons, ih _ (by simp; omega), Sink.output_emit _ _ h]; simp

@[simp] theorem Sink.output_beginCall (k : Sink) : k.beginCall.output = [] := by simp [Sink.output]

theorem Sink.wf_emit {k : Sink} (b : Byte) (h : k.wf) : (k.emit b).wf := by
  refine ⟨?_, by have := h.2; simp; omega⟩
  have above : ∀ c ∈ k.out, c.1 < k.olen := fun c hc => by
    have : c.1 ∈ k.out.map Prod.fst := List.mem_map_of_mem hc
    rw [h.1] at this
    exact List.mem_range.1 this
  rw [Sink.emit_olen, List.range_succ, Sink.emit]
  simp [Memory.write_above b above, h.1]

/-- Appending keeps the sink's invariant. -/
theorem Sink.wf_emitAll {k : Sink} (bs : List Byte) (h : k.wf) : (k.emitAll bs).wf := by
  induction bs generalizing k with
  | nil => exact h
  | cons b bs ih => exact ih (Sink.wf_emit b h)

theorem Sink.wf_beginCall {k : Sink} (h : k.wf) : k.beginCall.wf := ⟨h.1, Nat.le_refl _⟩

theorem Sink.wf_holding (bs : List Byte) : (Sink.holding bs).wf := Sink.wf_emitAll bs (by decide)

/-- The sink's invariant puts its memory in canonical form. -/
theorem Sink.wf_memory {k : Sink} (h : k.wf) : k.out.wf := by
  have := List.pairwise_lt_range (n := k.olen)
  rwa [← h.1, List.pairwise_map] at this

/-- Every memory operation of the sink keeps the canonical form. -/
theorem Sink.emitAll_memory_wf {k : Sink} (bs : List Byte) (h : k.out.wf) : (k.emitAll bs).out.wf := by
  induction bs generalizing k with
  | nil => exact h
  | cons b bs ih => exact ih (Memory.write_wf _ _ h)

theorem literalBytes_eq (s : Byte) : literalBytes s = if s = 0x00 then [0x00, 0x01, 0x00] else [s] := by
  rw [literalBytes, ite_not]; rfl

theorem descriptorBytes_eq (s n : Byte) : descriptorBytes s n = [0x00, n, s] := rfl

end Sys2Proof.Machine
end

