-- ==== Sys2Proof/Laws/State.lean ====
section
/-!
SUPPORT. What each named update of a record leaves of every field, one lemma per field, true by `rfl`, so that no later proof
unfolds a record update.
-/

namespace Sys2Proof.Machine

/-! ### Cursor -/

@[simp] theorem Source.advance_bytes (x : Source) : x.advance.bytes = x.bytes := rfl
@[simp] theorem Source.advance_ipos (x : Source) : x.advance.ipos = x.ipos + 1 := rfl
@[simp] theorem Source.start_bytes (bs : List Byte) : (Source.start bs).bytes = bs := rfl
@[simp] theorem Source.start_ipos (bs : List Byte) : (Source.start bs).ipos = 0 := rfl

/-! ### Reset (R36) -/

@[simp] theorem Enc.reset_phase (e : Enc) : e.reset.phase = .run := rfl
@[simp] theorem Enc.reset_pendValid (e : Enc) : e.reset.pendValid = false := rfl
@[simp] theorem Enc.reset_run (e : Enc) : e.reset.run = 0 := rfl
@[simp] theorem Enc.reset_src (e : Enc) : e.reset.src = Source.start e.src.bytes := rfl
@[simp] theorem Enc.reset_sink (e : Enc) : e.reset.sink = e.sink.beginCall := rfl
@[simp] theorem Dec.reset_phase (d : Dec) : d.reset.phase = .run := rfl
@[simp] theorem Dec.reset_dstate (d : Dec) : d.reset.dstate = .literal := rfl
@[simp] theorem Dec.reset_total (d : Dec) : d.reset.total = 0 := rfl
@[simp] theorem Dec.reset_err (d : Dec) : d.reset.err = .none := rfl
@[simp] theorem Dec.reset_src (d : Dec) : d.reset.src = Source.start d.src.bytes := rfl
@[simp] theorem Dec.reset_sink (d : Dec) : d.reset.sink = d.sink.beginCall := rfl

/-- Power-on reset is the reset of a call (R240). -/
theorem State.reset_enc : State.reset.enc.reset = State.reset.enc := rfl
/-- Power-on reset is the reset of a call (R240). -/
theorem State.reset_dec : State.reset.dec.reset = State.reset.dec := rfl

/-! ### Fault entry (R214) -/

@[simp] theorem Dec.raise_phase (d : Dec) : d.raiseCorruptData.phase = .fault := rfl
@[simp] theorem Dec.raise_err (d : Dec) : d.raiseCorruptData.err = .corruptData := rfl
@[simp] theorem Dec.raise_dstate (d : Dec) : d.raiseCorruptData.dstate = d.dstate := rfl
@[simp] theorem Dec.raise_cnt (d : Dec) : d.raiseCorruptData.cnt = d.cnt := rfl
@[simp] theorem Dec.raise_total (d : Dec) : d.raiseCorruptData.total = d.total := rfl
@[simp] theorem Dec.raise_src (d : Dec) : d.raiseCorruptData.src = d.src := rfl
@[simp] theorem Dec.raise_sink (d : Dec) : d.raiseCorruptData.sink = d.sink := rfl

/-! ### The decoder's steps that cannot be refused -/

@[simp] theorem Dec.afterEsc_phase (d : Dec) : d.afterEsc.phase = d.phase := rfl
@[simp] theorem Dec.afterEsc_dstate (d : Dec) : d.afterEsc.dstate = .readingCount := rfl
@[simp] theorem Dec.afterEsc_cnt (d : Dec) : d.afterEsc.cnt = d.cnt := rfl
@[simp] theorem Dec.afterEsc_total (d : Dec) : d.afterEsc.total = d.total := rfl
@[simp] theorem Dec.afterEsc_err (d : Dec) : d.afterEsc.err = d.err := rfl
@[simp] theorem Dec.afterEsc_src (d : Dec) : d.afterEsc.src = d.src.advance := rfl
@[simp] theorem Dec.afterEsc_sink (d : Dec) : d.afterEsc.sink = d.sink := rfl
@[simp] theorem Dec.afterCnt_phase (b : Byte) (d : Dec) : (d.afterCnt b).phase = d.phase := rfl
@[simp] theorem Dec.afterCnt_dstate (b : Byte) (d : Dec) : (d.afterCnt b).dstate = .readingValue := rfl
@[simp] theorem Dec.afterCnt_cnt (b : Byte) (d : Dec) : (d.afterCnt b).cnt = b := rfl
@[simp] theorem Dec.afterCnt_total (b : Byte) (d : Dec) : (d.afterCnt b).total = d.total := rfl
@[simp] theorem Dec.afterCnt_err (b : Byte) (d : Dec) : (d.afterCnt b).err = d.err := rfl
@[simp] theorem Dec.afterCnt_src (b : Byte) (d : Dec) : (d.afterCnt b).src = d.src.advance := rfl
@[simp] theorem Dec.afterCnt_sink (b : Byte) (d : Dec) : (d.afterCnt b).sink = d.sink := rfl
@[simp] theorem Dec.afterEnd_phase (d : Dec) : d.afterEnd.phase = .done := rfl
@[simp] theorem Dec.afterEnd_dstate (d : Dec) : d.afterEnd.dstate = d.dstate := rfl
@[simp] theorem Dec.afterEnd_cnt (d : Dec) : d.afterEnd.cnt = d.cnt := rfl
@[simp] theorem Dec.afterEnd_total (d : Dec) : d.afterEnd.total = d.total := rfl
@[simp] theorem Dec.afterEnd_err (d : Dec) : d.afterEnd.err = d.err := rfl
@[simp] theorem Dec.afterEnd_src (d : Dec) : d.afterEnd.src = d.src := rfl
@[simp] theorem Dec.afterEnd_sink (d : Dec) : d.afterEnd.sink = d.sink := rfl

/-! ### The host's operations -/

@[simp] theorem State.resetAgent_enc_enc (s : State) : (s.resetAgent .enc).enc = s.enc.reset := rfl
@[simp] theorem State.resetAgent_enc_dec (s : State) : (s.resetAgent .enc).dec = s.dec := rfl
@[simp] theorem State.resetAgent_dec_enc (s : State) : (s.resetAgent .dec).enc = s.enc := rfl
@[simp] theorem State.resetAgent_dec_dec (s : State) : (s.resetAgent .dec).dec = s.dec.reset := rfl
@[simp] theorem State.resetAgent_cfg (s : State) (a : Agent) : (s.resetAgent a).cfg = s.cfg := by cases a <;> rfl
@[simp] theorem State.resetAgent_host (s : State) (a : Agent) : (s.resetAgent a).host = s.host := by cases a <;> rfl
@[simp] theorem State.resetAgent_turns (s : State) (a : Agent) : (s.resetAgent a).turns = s.turns := by cases a <;> rfl
@[simp] theorem State.provide_cfg (s : State) (bs : List Byte) (k : Sink) (a : Agent) :
    (s.provide bs k a).cfg = s.cfg := by cases a <;> rfl
@[simp] theorem State.provide_host (s : State) (bs : List Byte) (k : Sink) (a : Agent) :
    (s.provide bs k a).host = s.host := by cases a <;> rfl
@[simp] theorem State.provide_turns (s : State) (bs : List Byte) (k : Sink) (a : Agent) :
    (s.provide bs k a).turns = s.turns := by cases a <;> rfl

@[simp] theorem State.afterChoice_enc (s : State) : s.afterChoice.enc = s.enc := by
  rw [State.afterChoice]; split <;> rfl
@[simp] theorem State.afterChoice_dec (s : State) : s.afterChoice.dec = s.dec := by
  rw [State.afterChoice]; split <;> rfl
@[simp] theorem State.afterChoice_cfg (s : State) : s.afterChoice.cfg = s.cfg := by
  rw [State.afterChoice]; split <;> rfl
@[simp] theorem State.afterChoice_host (s : State) : s.afterChoice.host = s.host := by
  rw [State.afterChoice]; split <;> rfl

end Sys2Proof.Machine
end

