-- ==== Sys2Proof/Laws/Steps.lean ====
section
/-!
SUPPORT. What a step can do, said once: one inversion lemma per shared operation (when it answers a next state, and which),
and for `step` itself.
-/

namespace Sys2Proof.Machine

/-! ### Tokens -/

theorem Source.token_byte {x : Source} {b : Byte} : x.token = some (.byte b) ↔ x.bytes[x.ipos]? = some b := by
  rw [Source.token]
  cases h : x.bytes[x.ipos]? with
  | some c => simp
  | none => simp

theorem Source.token_eoi {x : Source} : x.token = some .eoi ↔ x.ipos = x.bytes.length := by
  rw [Source.token]
  cases h : x.bytes[x.ipos]? with
  | some c =>
    have := (List.getElem?_eq_some_iff.1 h).1
    simp; omega
  | none => simp

/-- The next token always exists while the cursor is in the stream (R248). -/
theorem Source.token_exists {x : Source} (h : x.ipos ≤ x.bytes.length) : ∃ t, x.token = some t := by
  rw [Source.token]
  cases e : x.bytes[x.ipos]? with
  | some c => exact ⟨_, rfl⟩
  | none =>
    have := List.getElem?_eq_none_iff.1 e
    exact ⟨.eoi, if_pos (by omega)⟩

theorem Source.token_byte_lt {x : Source} {b : Byte} (h : x.token = some (.byte b)) : x.ipos < x.bytes.length :=
  (List.getElem?_eq_some_iff.1 (Source.token_byte.1 h)).1

/-- Consuming a byte moves it from the stream's rest to its consumed part. -/
theorem Source.take_advance {x : Source} {b : Byte} (h : x.token = some (.byte b)) :
    x.bytes.take (x.ipos + 1) = x.bytes.take x.ipos ++ [b] := by
  have h' := Source.token_byte.1 h
  rw [List.take_add_one, h']; rfl

/-! ### The shared frames of the steps -/

theorem encStep_next {tok : Token} {sel : Bool} {after : Enc} {s t : State} :
    encStep tok sel after s = .next t ↔
      s.enc.phase = .run ∧ s.enc.src.token = some tok ∧ sel = true ∧ { s with enc := after } = t := by
  rw [encStep]
  cases s.enc.phase <;> cases s.enc.src.token <;> simp
  · split <;> simp_all

theorem decResult_next {after : Option Dec} {s t : State} :
    decResult after s = .next t ↔ ∃ d, after = some d ∧ { s with dec := d } = t := by
  cases after <;> simp [decResult]

theorem decStep_next {tok : Token} {sel : Bool} {after : Option Dec} {s t : State} :
    decStep tok sel after s = .next t ↔
      s.dec.phase = .run ∧ s.dec.src.token = some tok ∧ sel = true ∧ ∃ d, after = some d ∧ { s with dec := d } = t := by
  rw [decStep]
  cases s.dec.phase <;> cases s.dec.src.token <;> simp
  · split <;> simp_all [decResult_next]

theorem unitStep_next {bs : List Byte} {sel : Bool} {after : Option Dec} {s t : State} :
    unitStep bs sel after s = .next t ↔
      s.dec.phase = .run ∧ (∃ tok, s.dec.src.token = some tok) ∧ s.dec.dstate = .literal ∧
        s.dec.src.startsWith bs = true ∧ sel = true ∧ ∃ d, after = some d ∧ { s with dec := d } = t := by
  rw [unitStep]
  cases s.dec.phase <;> cases s.dec.src.token <;> simp
  · split <;> simp_all [decResult_next]

theorem emitterStep_next {sel : Bool} {after : Sink} {s t : State} :
    emitterStep sel after s = .next t ↔
      s.enc.phase = .run ∧ sel = true ∧ { s with enc := { s.enc with sink := after } } = t := by
  rw [emitterStep]
  cases s.enc.phase <;> simp
  · split <;> simp_all

/-- The addition to `total` is exact where `TOTAL_W` can hold the sum, and has no value elsewhere (R182). -/
theorem Dec.addTotal_some {cfg : Params} {k : Nat} {d d' : Dec} :
    d.addTotal cfg k = some d' ↔ cfg.holds (d.total + k) ∧ { d with total := d.total + k } = d' := by
  rw [Dec.addTotal, Params.holds]
  cases cfg.totalW with
  | none => simp
  | some w => by_cases h : d.total + k < 2 ^ w <;> simp [h]

theorem Dec.afterLit_some {cfg : Params} {b : Byte} {d d' : Dec} :
    d.afterLit cfg b = some d' ↔ cfg.holds (d.total + 1) ∧
      { d with total := d.total + 1, sink := d.sink.emit b, src := d.src.advance } = d' := by
  simp [Dec.afterLit, Option.map_eq_some_iff, Dec.addTotal_some]

theorem Dec.afterVal_some {cfg : Params} {b : Byte} {d d' : Dec} :
    d.afterVal cfg b = some d' ↔ cfg.holds (d.total + d.cnt.toNat) ∧
      { d with
        total := d.total + d.cnt.toNat, sink := d.sink.emitAll (List.replicate d.cnt.toNat b)
        dstate := .literal, src := d.src.advance } = d' := by
  simp [Dec.afterVal, Option.map_eq_some_iff, Dec.addTotal_some, Dec.copies]

theorem Dec.afterRun_some {cfg : Params} {n v : Byte} {d d' : Dec} :
    d.afterRun cfg n v = some d' ↔ cfg.holds (d.total + n.toNat) ∧
      { d with
        total := d.total + n.toNat, sink := d.sink.emitAll (List.replicate n.toNat v), cnt := n
        dstate := .literal, src := d.src.advance.advance.advance } = d' := by
  simp [Dec.afterRun, Dec.afterVal_some, Dec.afterCnt, Dec.afterEsc]

/-! ### Who an instruction touches -/

/-- An instruction of the encoder runs only in phase `Run` and changes the encoder's record alone (R20). -/
theorem exec_enc_next {i : Instr} {s t : State} (hi : i.agent = .enc) (h : exec i s = .next t) :
    s.enc.phase = .run ∧ ∃ e, { s with enc := e } = t := by
  cases i <;> first | (exfalso; revert hi; simp [Instr.agent, Instr.group]; done) | skip
  case emitLiteral => obtain ⟨h1, _, h⟩ := emitterStep_next.1 h; exact ⟨h1, _, h⟩
  case emitRun => obtain ⟨h1, _, h⟩ := emitterStep_next.1 h; exact ⟨h1, _, h⟩
  all_goals obtain ⟨h1, _, _, h⟩ := encStep_next.1 h; exact ⟨h1, _, h⟩

/-- An instruction of the decoder runs only in phase `Run` and changes the decoder's record alone (R20). -/
theorem exec_dec_next {i : Instr} {s t : State} (hi : i.agent = .dec) (h : exec i s = .next t) :
    s.dec.phase = .run ∧ ∃ d, { s with dec := d } = t := by
  cases i <;> first | (exfalso; revert hi; simp [Instr.agent, Instr.group]; done) | skip
  case lit => obtain ⟨h1, _, _, _, _, d, _, h⟩ := unitStep_next.1 h; exact ⟨h1, d, h⟩
  case run => obtain ⟨h1, _, _, _, _, d, _, h⟩ := unitStep_next.1 h; exact ⟨h1, d, h⟩
  case esc1 => obtain ⟨h1, _, _, _, _, d, _, h⟩ := unitStep_next.1 h; exact ⟨h1, d, h⟩
  case illegal => obtain ⟨h1, _, _, _, _, d, _, h⟩ := unitStep_next.1 h; exact ⟨h1, d, h⟩
  all_goals obtain ⟨h1, _, _, d, _, h⟩ := decStep_next.1 h; exact ⟨h1, d, h⟩

/-! ### The step -/

theorem runFetched_next {f : Host.Outcome Instr Fault Refusal} {s t : State} :
    runFetched f s = .next t ↔ ∃ i, f = .next i ∧ exec i s = .next t := by
  cases f <;> simp [runFetched]

theorem State.launch_next {s t : State} {l : Launch} :
    s.launch l = .next t ↔ ∃ k bytes, launchSink (s.sinkOf l.agent) l.sink = .ok k ∧
      s.launchInput l.input = .ok bytes ∧ (s.provide bytes k l.agent).resetAgent l.agent = t := by
  rw [State.launch]
  cases launchSink (s.sinkOf l.agent) l.sink <;> cases s.launchInput l.input <;> simp

/-- Everything a step that gives a next state can be: an agent's token step or the decoder's unit, run on a state with the
same two records and parameters; or a reset; or a launch. -/
theorem step_next {s t : State} (h : step s = .next t) :
    (∃ i s0, exec i s0 = .next t ∧ s0.enc = s.enc ∧ s0.dec = s.dec ∧ s0.cfg = s.cfg ∧
      (s.enc.nextStep = .next i ∨ s.dec.nextStep = .next i ∨ s.dec.nextUnit = .next i)) ∨
    (∃ a rest, s.host = .reset a :: rest ∧ ({ s with host := rest } : State).resetAgent a = t) ∨
    (∃ l rest, s.host = .launch l :: rest ∧ ({ s with host := rest } : State).launch l = .next t) := by
  rw [step] at h
  split at h
  · rename_i a rest _
    obtain ⟨i, hi, hx⟩ := runFetched_next.1 h
    refine .inl ⟨i, _, hx, rfl, rfl, rfl, ?_⟩
    cases a
    · exact .inl hi
    · exact .inr (.inl hi)
  · obtain ⟨i, hi, hx⟩ := runFetched_next.1 h
    exact .inl ⟨i, _, hx, rfl, rfl, rfl, .inr (.inr hi)⟩
  · rename_i a rest e
    exact .inr (.inl ⟨a, rest, e, by simpa using h⟩)
  · rename_i l rest e
    exact .inr (.inr ⟨l, rest, e, h⟩)
  · split at h
    · rename_i a _
      obtain ⟨i, hi, hx⟩ := runFetched_next.1 h
      refine .inl ⟨i, _, hx, by simp, by simp, by simp, ?_⟩
      cases a
      · exact .inl hi
      · exact .inr (.inl hi)
    · simp at h

/-! ### Runs -/

/-- A run of `k + 1` steps is a step and a run of `k`. -/
theorem core_run_succ {s t : State} {k : Nat} :
    Host.Core.run Sys2Proof.core (k + 1) s = .next t ↔
      ∃ u, step s = .next u ∧ Host.Core.run Sys2Proof.core k u = .next t := by
  refine (Eq.congr_left (Host.Core.run.eq_2 Sys2Proof.core s k)).trans ?_
  generalize e : Sys2Proof.core.step s = o
  have e' : step s = o := e
  cases o with
  | next u => exact ⟨fun h => ⟨u, e', h⟩, fun ⟨v, hv, h⟩ => by rw [e'] at hv; cases hv; exact h⟩
  | fault r => exact ⟨fun h => (nomatch h), fun ⟨v, hv, _⟩ => by rw [e'] at hv; cases hv⟩
  | refused r => exact ⟨fun h => (nomatch h), fun ⟨v, hv, _⟩ => by rw [e'] at hv; cases hv⟩

@[simp] theorem core_run_zero {s t : State} : Host.Core.run Sys2Proof.core 0 s = .next t ↔ s = t := by
  refine (Eq.congr_left (Host.Core.run.eq_1 Sys2Proof.core s)).trans ?_
  exact ⟨fun h => by injection h, fun h => congrArg _ h⟩

/-- Runs compose. -/
theorem core_run_add {s t u : State} {j k : Nat} (h : Host.Core.run Sys2Proof.core j s = .next u)
    (h' : Host.Core.run Sys2Proof.core k u = .next t) : Host.Core.run Sys2Proof.core (j + k) s = .next t := by
  induction j generalizing s with
  | zero => rw [core_run_zero] at h; subst h; simpa using h'
  | succ j ih =>
    obtain ⟨w, hw, hr⟩ := core_run_succ.1 h
    rw [Nat.add_right_comm]
    exact core_run_succ.2 ⟨w, hw, ih hr⟩

end Sys2Proof.Machine
end

