-- ==== Sys2Proof/Tests/Slice0.lean ====
section
/-!
SUPPORT. Small tests, one step each. Expected results are the spec's own: the vectors of spec/95_test_vectors.md sections 2.1 to
2.5 (named by section and row), the bit patterns of spec/30_encoding.md, and the lines of the rules cited. Then, for every
statement of Certificates/Slice0/Obligations.lean with hypotheses, a state and operands that meet them.
-/

namespace Sys2Proof.Tests

open Sys2Proof.Machine

/-! ### Small states -/

/-- The encoder in phase `Run` on an input, with its cursor and its registers `(pend_valid, pend, run)`. -/
def encAt (bytes : List Byte) (ipos : Nat) (pendValid : Bool) (pend run : Byte) : State :=
  { State.reset with
    enc := { State.reset.enc with
      pendValid := pendValid, pend := pend, run := run, src := { bytes := bytes, ipos := ipos } } }

/-- The decoder in phase `Run` on an input, with its cursor and its registers `(dstate, cnt, total)`. -/
def decAt (bytes : List Byte) (ipos : Nat) (dstate : DState) (cnt : Byte) (total : Nat) : State :=
  { State.reset with
    dec := { State.reset.dec with
      dstate := dstate, cnt := cnt, total := total, src := { bytes := bytes, ipos := ipos } } }

/-- The same under `TRUNC_POLICY = error`. -/
def hardened (s : State) : State := { s with cfg := { s.cfg with trunc := .error } }

/-- The same with a `total` of `w` bits. -/
def narrow (s : State) (w : Nat) : State := { s with cfg := { s.cfg with totalW := some w } }

/-- The same with events in the host's queue. -/
def withHost (s : State) (events : List HostEvent) : State := { s with host := events }

/-- The next state, where there is one. -/
def after : Host.Outcome State Fault Refusal → Option State
  | .next s => some s
  | .fault _ => none
  | .refused _ => none

/-- The refusal, where there is one. -/
def refusal : Host.Outcome State Fault Refusal → Option Refusal
  | .next _ => none
  | .fault _ => none
  | .refused r => some r

/-- `(pend_valid, pend, run)` and the output after a step, as the encoder's vectors show them. -/
def encRow (o : Host.Outcome State Fault Refusal) : Option ((Bool × Byte × Byte) × List Byte) :=
  (after o).map fun t => ((t.enc.pendValid, t.enc.pend, t.enc.run), t.enc.sink.output)

/-- `(dstate, cnt, total)`, the output and `(phase, err)` after a step, as the decoder's vectors show them. -/
def decRow (o : Host.Outcome State Fault Refusal) :
    Option ((DState × Byte × Nat) × List Byte × DecPhase × Err) :=
  (after o).map fun t => ((t.dec.dstate, t.dec.cnt, t.dec.total), t.dec.sink.output, t.dec.phase, t.dec.err)

/-! ### Well-formedness: one ill-formed term for each check -/

theorem test_lit_zero_refused : (Instr.lit 0x00).wellFormed = false ∧ (Instr.lit 0x01).wellFormed = true := by decide
theorem test_run_zero_refused : (Instr.run 0 0x41).wellFormed = false ∧ (Instr.run 1 0x00).wellFormed = true := by decide
theorem test_decLit_zero_refused : (Instr.decLit 0x00).wellFormed = false ∧ (Instr.decLit 0xFF).wellFormed = true := by decide
theorem test_decCnt_zero_refused : (Instr.decCnt 0x00).wellFormed = false ∧ (Instr.decCnt 0x01).wellFormed = true := by decide
theorem test_emitRun_one_refused :
    (Instr.emitRun 0x41 1).wellFormed = false ∧ (Instr.emitRun 0x41 2).wellFormed = true := by decide

/-! ### Decoding: every constructor's word, written out from its encoding (R81, R82, R86, R92, R110, R151, R95) -/

theorem test_word_lit : decodeUnit [0b01000001, 0b11111111] = .ok (.lit 0x41, [0xFF]) := by rfl
theorem test_word_run : decodeUnit [0b00000000, 0b00000011, 0b01000010, 0b00100001] = .ok (.run 3 0x42, [0x21]) := by rfl
theorem test_word_esc1 : decodeUnit [0b00000000, 0b00000001, 0b00000000] = .ok (.esc1, []) := by rfl
theorem test_word_illegal : decodeUnit [0b00000000, 0b00000000, 0b01000011] = .ok (.illegal, [0x43]) := by rfl
/-- R89 (a): `RUN 1, v` with another value is a run like any other. -/
theorem test_word_run_one : decodeUnit [0x00, 0x01, 0x41] = .ok (.run 1 0x41, []) := by rfl
/-- R87: the two truncated forms, and the empty stream, by name. -/
theorem test_word_truncated :
    decodeUnit [0x00] = .error .truncatedAfterEscape ∧ decodeUnit [0x00, 0x05] = .error .truncatedAfterCount ∧
      decodeUnit [] = .error .endOfStream := ⟨rfl, rfl, rfl⟩
theorem test_word_dec_steps :
    decodeDecStep .literal (.byte 0b01000001) = .decLit 0x41 ∧ decodeDecStep .literal (.byte 0b00000000) = .decEsc ∧
      decodeDecStep .readingCount (.byte 0b11111111) = .decCnt 0xFF ∧
      decodeDecStep .readingCount (.byte 0b00000000) = .decCnt0 ∧
      decodeDecStep .readingValue (.byte 0b00000000) = .decVal 0x00 ∧ decodeDecStep .literal .eoi = .decEndL ∧
      decodeDecStep .readingCount .eoi = .decEndT ∧ decodeDecStep .readingValue .eoi = .decEndT := by decide
theorem test_word_enc_steps :
    decodeEncStep false 0x00 0 (.byte 0b01000001) = .ok (.encFirst 0x41) ∧
      decodeEncStep true 0x41 0 (.byte 0b01000001) = .ok (.encStart 0x41) ∧
      decodeEncStep true 0x41 0 (.byte 0b01000010) = .ok (.encSingle 0x42) ∧
      decodeEncStep true 0x41 1 (.byte 0b01000001) = .ok (.encExtend 0x41) ∧
      decodeEncStep true 0x41 253 (.byte 0b01000001) = .ok (.encExtend 0x41) ∧
      decodeEncStep true 0x41 254 (.byte 0b01000001) = .ok (.encCap 0x41) ∧
      decodeEncStep true 0x41 254 (.byte 0b01000010) = .ok (.encBreak 0x42) := ⟨rfl, rfl, rfl, rfl, rfl, rfl, rfl⟩
theorem test_word_enc_ends :
    decodeEncStep true 0x41 254 .eoi = .ok .encEndRun ∧ decodeEncStep true 0x41 0 .eoi = .ok .encEndLit ∧
      decodeEncStep false 0x00 0 .eoi = .ok .encEndEmpty ∧ decodeEncStep true 0x41 255 .eoi = .error .noEncoderRow ∧
      decodeEncStep false 0x00 1 .eoi = .error .noEncoderRow := ⟨rfl, rfl, rfl, rfl, rfl⟩
theorem test_word_emit :
    encode (.emitLiteral 0x00) = [0b00000000, 0b00000001, 0b00000000] ∧ encode (.emitLiteral 0x41) = [0b01000001] ∧
      encode (.emitRun 0x41 65) = [0b00000000, 0b01000001, 0b01000001] := by decide

/-! ### Encoder steps (95_test_vectors.md section 2.1) -/

theorem test_encFirst : encRow (exec (.encFirst 0x00) (encAt [0x00] 0 false 0x55 0)) = some ((true, 0x00, 0), []) := by
  decide
theorem test_encStart : encRow (exec (.encStart 0x41) (encAt [0x41, 0x41] 1 true 0x41 0)) = some ((true, 0x41, 1), []) := by
  decide
theorem test_encSingle :
    encRow (exec (.encSingle 0x00) (encAt [0x41, 0x00] 1 true 0x41 0)) = some ((true, 0x00, 0), [0x41]) := by decide
theorem test_encSingle_escape :
    encRow (exec (.encSingle 0x43) (encAt [0x00, 0x43] 1 true 0x00 0)) = some ((true, 0x43, 0), [0x00, 0x01, 0x00]) := by
  decide
theorem test_encExtend_to_cap :
    encRow (exec (.encExtend 0x41) (encAt [0x41, 0x41] 1 true 0x41 253)) = some ((true, 0x41, 254), []) := by decide
theorem test_encCap :
    encRow (exec (.encCap 0x41) (encAt [0x41, 0x41] 1 true 0x41 254)) = some ((true, 0x41, 0), [0x00, 0xFF, 0x41]) := by
  decide
theorem test_encBreak_shortest :
    encRow (exec (.encBreak 0x42) (encAt [0x41, 0x42] 1 true 0x41 1)) = some ((true, 0x42, 0), [0x00, 0x02, 0x41]) := by
  decide
theorem test_encBreak_longest :
    encRow (exec (.encBreak 0x42) (encAt [0x41, 0x42] 1 true 0x41 254)) = some ((true, 0x42, 0), [0x00, 0xFF, 0x41]) := by
  decide
theorem test_encEndRun :
    encRow (exec .encEndRun (encAt [0x41] 1 true 0x41 254)) = some ((true, 0x41, 254), [0x00, 0xFF, 0x41]) := by decide
theorem test_encEndLit :
    encRow (exec .encEndLit (encAt [0x00] 1 true 0x00 0)) = some ((true, 0x00, 0), [0x00, 0x01, 0x00]) := by decide
theorem test_encEndEmpty :
    (after (exec .encEndEmpty (encAt [] 0 false 0x00 0))).map (fun t => (t.enc.phase, t.enc.sink.output)) =
      some (.done, []) := by decide
/-- R247 (a): the nearest refused input. -/
theorem test_encoder_done_refuses :
    refusal (exec .encEndEmpty { encAt [] 0 false 0x00 0 with enc := { State.reset.enc with phase := .done } }) =
      some .callOver := by decide

/-! ### The emitter (section 2.2) -/

theorem test_emitLiteral_escape : encRow (exec (.emitLiteral 0x00) State.reset) = some ((false, 0, 0), [0x00, 0x01, 0x00]) := by
  decide
theorem test_emitLiteral : encRow (exec (.emitLiteral 0xFF) State.reset) = some ((false, 0, 0), [0xFF]) := by decide
theorem test_emitRun : encRow (exec (.emitRun 0x41 65) State.reset) = some ((false, 0, 0), [0x00, 0x41, 0x41]) := by decide
theorem test_emitRun_needs_two : refusal (exec (.emitRun 0x41 1) State.reset) = some .notSelected := by decide

/-! ### Decoder steps (section 2.3) -/

theorem test_decLit :
    decRow (exec (.decLit 0xFF) (decAt [0xFF] 0 .literal 3 7)) = some ((.literal, 3, 8), [0xFF], .run, .none) := by decide
theorem test_decEsc :
    decRow (exec .decEsc (decAt [0x00] 0 .literal 9 0)) = some ((.readingCount, 9, 0), [], .run, .none) := by decide
theorem test_decCnt :
    decRow (exec (.decCnt 0xFF) (decAt [0x00, 0xFF] 1 .readingCount 3 4)) =
      some ((.readingValue, 255, 4), [], .run, .none) := by decide
theorem test_decCnt0 :
    decRow (exec .decCnt0 (decAt [0x41, 0x00, 0x00] 2 .readingCount 7 1)) =
      some ((.readingCount, 7, 1), [], .fault, .corruptData) := by decide
theorem test_decCnt0_keeps_cursor :
    (after (exec .decCnt0 (decAt [0x41, 0x00, 0x00] 2 .readingCount 7 1))).map (fun t => t.dec.src.ipos) = some 2 := by decide
theorem test_decVal :
    decRow (exec (.decVal 0x41) (decAt [0x00, 0x03, 0x41] 2 .readingValue 3 0)) =
      some ((.literal, 3, 3), [0x41, 0x41, 0x41], .run, .none) := by decide
theorem test_decVal_zero :
    decRow (exec (.decVal 0x00) (decAt [0x00, 0x01, 0x00] 2 .readingValue 1 0)) =
      some ((.literal, 1, 1), [0x00], .run, .none) := by decide
theorem test_decEndL :
    (after (exec .decEndL (decAt [0x41] 1 .literal 3 3))).map (fun t => (t.dec.phase, t.dec.result)) =
      some (.done, some 3) := by decide
theorem test_decEndT_drop :
    decRow (exec .decEndT (decAt [0x00, 0x05] 2 .readingValue 5 1)) = some ((.readingValue, 5, 1), [], .done, .none) := by
  decide
theorem test_decEndT_error :
    decRow (exec .decEndT (hardened (decAt [0x00, 0x05] 2 .readingValue 5 1))) =
      some ((.readingValue, 5, 1), [], .fault, .corruptData) := by decide
/-- R182, R247 (f): with 3 bits, a `total` of 7 takes no further byte, and one of 6 does. -/
theorem test_total_overflow :
    refusal (exec (.decLit 0x41) (narrow (decAt [0x41] 0 .literal 0 7) 3)) = some .totalOverflow ∧
      refusal (exec (.decLit 0x41) (narrow (decAt [0x41] 0 .literal 0 6) 3)) = none := by decide

/-! ### Units (section 2.5, R162) -/

theorem test_lit : decRow (exec (.lit 0x48) (decAt [0x48, 0x00] 0 .literal 0 0)) = some ((.literal, 0, 1), [0x48], .run, .none) := by
  decide
theorem test_run :
    decRow (exec (.run 3 0x69) (decAt [0x48, 0x00, 0x03, 0x69, 0x21] 1 .literal 0 1)) =
      some ((.literal, 3, 4), [0x69, 0x69, 0x69], .run, .none) := by decide
theorem test_run_cut : refusal (exec (.run 3 0x69) (decAt [0x00, 0x03] 0 .literal 0 0)) = some .notSelected := by decide
theorem test_esc1 :
    decRow (exec .esc1 (decAt [0x00, 0x01, 0x00] 0 .literal 0 0)) = some ((.literal, 1, 1), [0x00], .run, .none) := by decide
theorem test_illegal :
    (after (exec .illegal (decAt [0x00, 0x00, 0x41] 0 .literal 0 0))).map
      (fun t => (t.dec.src.ipos, t.dec.err, t.dec.sink.output)) = some (1, .corruptData, []) := by decide

/-! ### Stepping, and a table word run as the first instruction after reset -/

theorem test_fetch_run :
    decodeTableWord 24 0x000342 = some (.run 3 0x42) ∧
      decRow (step (State.reset.withFetchWord 24 0x000342)) = some ((.literal, 3, 3), [0x42, 0x42, 0x42], .run, .none) := by
  decide
theorem test_fetch_illegal :
    decodeTableWord 16 0x0000 = some .illegal ∧
      decRow (step (State.reset.withFetchWord 16 0x0000)) = some ((.readingCount, 0, 0), [], .fault, .corruptData) := by
  decide
theorem test_fetch_bytes :
    decodeTableWord 8 0x41 = some (.lit 0x41) ∧ decodeTableWord 8 0x00 = some .decEsc ∧
      decRow (step (State.reset.withFetchWord 8 0x41)) = some ((.literal, 0, 1), [0x41], .run, .none) ∧
      decRow (step (State.reset.withFetchWord 8 0x00)) = some ((.readingCount, 0, 0), [], .run, .none) := by decide
theorem test_fetch_end :
    decodeTableWord 0 0 = some .decEndL ∧
      decRow (step (State.reset.withFetchWord 0 0)) = some ((.literal, 0, 0), [], .done, .none) := by decide
/-- R57: the encoder's output is not handed over before its call is `Done`. -/
theorem test_no_early_hand_over :
    refusal (step (withHost State.reset [.launch { agent := .dec, input := .encoderOutput, sink := .kept }])) =
      some .streamNotFinished := by decide
/-- R240: a reset in mid-call loses the pending symbol and leaves the sink. -/
theorem test_reset_mid_call :
    (after (step (withHost
      { encAt [0x41, 0x42] 1 true 0x41 0 with
        enc := { (encAt [0x41, 0x42] 1 true 0x41 0).enc with sink := Sink.holding [0x99] } } [.reset .enc]))).map
      (fun t => (t.enc.pendValid, t.enc.src.ipos, t.enc.sink.olen, t.enc.sink.output)) = some (false, 0, 1, []) := by decide
/-- The canonical form holds after reset. -/
theorem test_reset_memory : Memory.wf State.reset.enc.sink.out ∧ Memory.wf State.reset.dec.sink.out := by decide
/-- V12 and V17 of section 2.4, and R188's closed form of them. -/
theorem test_encodeRef :
    encodeRef [0x00, 0x01, 0x00] = [0x00, 0x01, 0x00, 0x01, 0x00, 0x01, 0x00] ∧
      encodeRef [0x57, 0x57, 0x57, 0x57, 0x42, 0x57, 0x57] = [0x00, 0x04, 0x57, 0x42, 0x00, 0x02, 0x57] ∧
      encodeClosed [0x57, 0x57, 0x57, 0x57, 0x42, 0x57, 0x57] = [0x00, 0x04, 0x57, 0x42, 0x00, 0x02, 0x57] := by decide
/-- W9, W14 and W17 of section 2.5. -/
theorem test_decodeRef :
    decodeRef .drop [0x01, 0x00, 0x01, 0x00, 0x01] = .done [0x01, 0x00, 0x01] 3 .literal ∧
      decodeRef .drop [0x00, 0x02, 0x00, 0x00, 0x00] = .corrupt 4 ∧
      decodeRef .drop [0x00, 0x01, 0x00, 0x00] = .done [0x00] 1 .readingCount ∧
      decodeRef .error [0x00, 0x01, 0x00, 0x00] = .corrupt 4 := by decide

/-! ### Witnesses: for every statement with hypotheses, a state and operands that meet them together -/

theorem witness_EncFirstAdoptsTheByte :
    (encAt [0x00] 0 false 0x55 0).enc.phase = .run ∧ (encAt [0x00] 0 false 0x55 0).enc.src.token = some (.byte 0x00) ∧
      (encAt [0x00] 0 false 0x55 0).enc.pendValid = false ∧ (encAt [0x00] 0 false 0x55 0).enc.run = 0 := by decide

theorem witness_EncStartBeginsARun :
    (encAt [0, 0] 1 true 0 0).enc.phase = .run ∧ (encAt [0, 0] 1 true 0 0).enc.src.token = some (.byte 0) ∧
      (encAt [0, 0] 1 true 0 0).enc.pendValid = true ∧ 0 = (encAt [0, 0] 1 true 0 0).enc.pend ∧
      (encAt [0, 0] 1 true 0 0).enc.run = 0 := by decide

theorem witness_EncSingleEmitsTheLiteral :
    (encAt [0, 7] 1 true 0 0).enc.phase = .run ∧ (encAt [0, 7] 1 true 0 0).enc.src.token = some (.byte 7) ∧
      (encAt [0, 7] 1 true 0 0).enc.pendValid = true ∧ 7 ≠ (encAt [0, 7] 1 true 0 0).enc.pend ∧
      (encAt [0, 7] 1 true 0 0).enc.run = 0 := by decide

theorem witness_EncExtendCountsOneMore : ∀ r ∈ ([1, 253] : List Byte),
    (encAt [7, 7] 1 true 7 r).enc.phase = .run ∧ (encAt [7, 7] 1 true 7 r).enc.src.token = some (.byte 7) ∧
      (encAt [7, 7] 1 true 7 r).enc.pendValid = true ∧ 7 = (encAt [7, 7] 1 true 7 r).enc.pend ∧
      1 ≤ (encAt [7, 7] 1 true 7 r).enc.run.toNat ∧ (encAt [7, 7] 1 true 7 r).enc.run.toNat ≤ 253 := by decide

theorem witness_EncCapFlushesAFullRun :
    (encAt [7, 7] 1 true 7 254).enc.phase = .run ∧ (encAt [7, 7] 1 true 7 254).enc.src.token = some (.byte 7) ∧
      (encAt [7, 7] 1 true 7 254).enc.pendValid = true ∧ 7 = (encAt [7, 7] 1 true 7 254).enc.pend ∧
      (encAt [7, 7] 1 true 7 254).enc.run = 254 := by decide

theorem witness_EncBreakFlushesTheRun : ∀ r ∈ ([1, 254] : List Byte),
    (encAt [7, 8] 1 true 7 r).enc.phase = .run ∧ (encAt [7, 8] 1 true 7 r).enc.src.token = some (.byte 8) ∧
      (encAt [7, 8] 1 true 7 r).enc.pendValid = true ∧ 8 ≠ (encAt [7, 8] 1 true 7 r).enc.pend ∧
      1 ≤ (encAt [7, 8] 1 true 7 r).enc.run.toNat ∧ (encAt [7, 8] 1 true 7 r).enc.run.toNat ≤ 254 := by decide

theorem witness_EncEndRunFlushesAndEnds : ∀ r ∈ ([1, 254] : List Byte),
    (encAt [7] 1 true 7 r).enc.phase = .run ∧ (encAt [7] 1 true 7 r).enc.src.token = some .eoi ∧
      (encAt [7] 1 true 7 r).enc.pendValid = true ∧ 1 ≤ (encAt [7] 1 true 7 r).enc.run.toNat ∧
      (encAt [7] 1 true 7 r).enc.run.toNat ≤ 254 := by decide

theorem witness_EncEndLitEmitsAndEnds :
    (encAt [0] 1 true 0 0).enc.phase = .run ∧ (encAt [0] 1 true 0 0).enc.src.token = some .eoi ∧
      (encAt [0] 1 true 0 0).enc.pendValid = true ∧ (encAt [0] 1 true 0 0).enc.run = 0 := by decide

theorem witness_EncEndEmptyOnlyEnds :
    State.reset.enc.phase = .run ∧ State.reset.enc.src.token = some .eoi ∧ State.reset.enc.pendValid = false ∧
      State.reset.enc.run = 0 := by decide

theorem witness_EmitLiteralEscapesOnlyZero : State.reset.enc.phase = .run := by decide

theorem witness_EmitRunAppendsTheDescriptor : State.reset.enc.phase = .run ∧ 2 ≤ (2 : Byte).toNat ∧ 2 ≤ (255 : Byte).toNat := by
  decide

/-- With the unbounded `total` there is always room. -/
theorem unbounded_holds (n : Nat) : Config.defaults.holds n := fun _ h => nomatch h

/-- The largest total of 3 bits is held, the next is not. -/
theorem narrow_holds : ({ trunc := .drop, totalW := some 3 } : Params).holds 7 ∧
    ¬({ trunc := .drop, totalW := some 3 } : Params).holds 8 :=
  ⟨fun w h => by cases h; decide, fun h => absurd (h 3 rfl) (by decide)⟩

theorem witness_DecLitCopiesTheByte :
    (narrow (decAt [7] 0 .literal 0 6) 3).dec.phase = .run ∧
      (narrow (decAt [7] 0 .literal 0 6) 3).dec.src.token = some (.byte 7) ∧
      (narrow (decAt [7] 0 .literal 0 6) 3).dec.dstate = .literal ∧ (7 : Byte) ≠ 0x00 ∧
      (narrow (decAt [7] 0 .literal 0 6) 3).cfg.holds ((narrow (decAt [7] 0 .literal 0 6) 3).dec.total + 1) :=
  ⟨by decide, by decide, by decide, by decide, narrow_holds.1⟩

theorem witness_DecEscEntersADescriptor :
    (decAt [0] 0 .literal 0 0).dec.phase = .run ∧ (decAt [0] 0 .literal 0 0).dec.src.token = some (.byte 0x00) ∧
      (decAt [0] 0 .literal 0 0).dec.dstate = .literal := by decide

theorem witness_DecCntStoresTheCount : ∀ b ∈ ([1, 255] : List Byte),
    (decAt [0, b] 1 .readingCount 0 0).dec.phase = .run ∧
      (decAt [0, b] 1 .readingCount 0 0).dec.src.token = some (.byte b) ∧
      (decAt [0, b] 1 .readingCount 0 0).dec.dstate = .readingCount ∧ b ≠ 0x00 := by decide

theorem witness_DecCnt0RaisesCorruptData :
    (decAt [0, 0] 1 .readingCount 0 0).dec.phase = .run ∧
      (decAt [0, 0] 1 .readingCount 0 0).dec.src.token = some (.byte 0x00) ∧
      (decAt [0, 0] 1 .readingCount 0 0).dec.dstate = .readingCount := by decide

theorem witness_DecValExpandsTheRun :
    (decAt [0, 255, 0] 2 .readingValue 255 0).dec.phase = .run ∧
      (decAt [0, 255, 0] 2 .readingValue 255 0).dec.src.token = some (.byte 0) ∧
      (decAt [0, 255, 0] 2 .readingValue 255 0).dec.dstate = .readingValue ∧
      (decAt [0, 255, 0] 2 .readingValue 255 0).cfg.holds (0 + (255 : Byte).toNat) :=
  ⟨by decide, by decide, by decide, unbounded_holds _⟩

theorem witness_DecEndLEndsTheCall :
    State.reset.dec.phase = .run ∧ State.reset.dec.src.token = some .eoi ∧ State.reset.dec.dstate = .literal := by decide

theorem witness_DecEndTFollowsThePolicy : ∀ ds ∈ ([.readingCount, .readingValue] : List DState),
    (decAt [0] 1 ds 0 0).dec.phase = .run ∧ (decAt [0] 1 ds 0 0).dec.src.token = some .eoi ∧
      (decAt [0] 1 ds 0 0).dec.dstate ≠ .literal ∧ (decAt [0] 1 ds 0 0).cfg.trunc = .drop ∧
      (hardened (decAt [0] 1 ds 0 0)).cfg.trunc = .error := by decide

/-- One clause each: a literal, a run of the largest count, `ESC1`. -/
theorem witness_UnitsAppendTheirMeaning :
    (∃ (s : State) (front rest : List Byte) (b : Byte), s.dec.phase = .run ∧ s.dec.dstate = .literal ∧
      s.dec.src.ipos = front.length ∧ b ≠ 0x00 ∧ s.dec.src.bytes = front ++ b :: rest ∧ s.cfg.holds (s.dec.total + 1)) ∧
    (∃ (s : State) (front rest : List Byte) (n v : Byte), s.dec.phase = .run ∧ s.dec.dstate = .literal ∧
      s.dec.src.ipos = front.length ∧ n ≠ 0x00 ∧ s.dec.src.bytes = front ++ 0x00 :: n :: v :: rest ∧
      s.cfg.holds (s.dec.total + n.toNat)) ∧
    (∃ (s : State) (front rest : List Byte), s.dec.phase = .run ∧ s.dec.dstate = .literal ∧
      s.dec.src.ipos = front.length ∧ s.dec.src.bytes = front ++ 0x00 :: 0x01 :: 0x00 :: rest ∧
      s.cfg.holds (s.dec.total + 1)) :=
  ⟨⟨decAt [9, 1] 1 .literal 0 1, [9], [], 1, rfl, rfl, rfl, by decide, rfl, unbounded_holds _⟩,
    ⟨decAt [0, 255, 0] 0 .literal 0 0, [], [], 255, 0, rfl, rfl, rfl, by decide, rfl, unbounded_holds _⟩,
    ⟨decAt [0, 1, 0, 4] 0 .literal 0 0, [], [4], rfl, rfl, rfl, rfl, unbounded_holds _⟩⟩

theorem witness_IllegalUnitFaultsAtTheCount :
    ∃ (s : State) (front rest : List Byte), s.dec.phase = .run ∧ s.dec.dstate = .literal ∧
      s.dec.src.ipos = front.length ∧ s.dec.src.bytes = front ++ 0x00 :: 0x00 :: rest :=
  ⟨decAt [9, 0, 0] 1 .literal 0 1, [9], [], rfl, rfl, rfl, rfl⟩

/-- One clause each, the last byte being the stream's last. -/
theorem witness_UnitsAreTheirTokenSteps :
    (∃ (s : State) (front rest : List Byte) (b : Byte), s.dec.phase = .run ∧ s.dec.dstate = .literal ∧
      s.dec.src.ipos = front.length ∧ b ≠ 0x00 ∧ s.dec.src.bytes = front ++ b :: rest) ∧
    (∃ (s : State) (front rest : List Byte) (n v : Byte), s.dec.phase = .run ∧ s.dec.dstate = .literal ∧
      s.dec.src.ipos = front.length ∧ n ≠ 0x00 ∧ s.dec.src.bytes = front ++ 0x00 :: n :: v :: rest) ∧
    (∃ (s : State) (front rest : List Byte), s.dec.phase = .run ∧ s.dec.dstate = .literal ∧
      s.dec.src.ipos = front.length ∧ s.dec.src.bytes = front ++ 0x00 :: 0x01 :: 0x00 :: rest) ∧
    (∃ (s : State) (front rest : List Byte), s.dec.phase = .run ∧ s.dec.dstate = .literal ∧
      s.dec.src.ipos = front.length ∧ s.dec.src.bytes = front ++ 0x00 :: 0x00 :: rest) :=
  ⟨⟨decAt [9, 255] 1 .literal 0 1, [9], [], 255, rfl, rfl, rfl, by decide, rfl⟩,
    ⟨decAt [0, 1, 65] 0 .literal 0 0, [], [], 1, 65, rfl, rfl, rfl, by decide, rfl⟩,
    ⟨decAt [0, 1, 0] 0 .literal 0 0, [], [], rfl, rfl, rfl, rfl⟩,
    ⟨decAt [0, 0] 0 .literal 0 0, [], [], rfl, rfl, rfl, rfl⟩⟩

/-- A step that stores and one that does not. -/
theorem witness_EncoderFrame :
    ((Instr.encCap 7).agent = .enc ∧ ∃ t, exec (.encCap 7) (encAt [7, 7] 1 true 7 254) = .next t) ∧
      (Instr.encStart 7).agent = .enc ∧ ∃ t, exec (.encStart 7) (encAt [7, 7] 1 true 7 0) = .next t :=
  ⟨⟨rfl, _, rfl⟩, rfl, _, rfl⟩

/-- A step that stores and one that does not. -/
theorem witness_DecoderFrame :
    ((Instr.decVal 7).agent = .dec ∧ ∃ t, exec (.decVal 7) (decAt [0, 3, 7] 2 .readingValue 3 0) = .next t) ∧
      Instr.decEsc.agent = .dec ∧ ∃ t, exec .decEsc (decAt [0] 0 .literal 0 0) = .next t :=
  ⟨⟨rfl, _, rfl⟩, rfl, _, rfl⟩

/-- `ENC.START` writes neither `pend_valid`, `pend` nor `phase`, `ENC.FIRST` does not write `run`. -/
theorem witness_EncoderRegisterWriters :
    ((Instr.encStart 7).agent = .enc ∧ (∃ t, exec (.encStart 7) (encAt [7, 7] 1 true 7 0) = .next t) ∧
      (∀ b, Instr.encStart 7 ≠ .encFirst b) ∧
      ∀ b, Instr.encStart 7 ≠ .encFirst b ∧ Instr.encStart 7 ≠ .encSingle b ∧ Instr.encStart 7 ≠ .encCap b ∧
        Instr.encStart 7 ≠ .encBreak b) ∧
    (Instr.encFirst 7).agent = .enc ∧ (∃ t, exec (.encFirst 7) (encAt [7] 0 false 0 0) = .next t) ∧
      ∀ b, Instr.encFirst 7 ≠ .encStart b ∧ Instr.encFirst 7 ≠ .encExtend b ∧ Instr.encFirst 7 ≠ .encCap b ∧
        Instr.encFirst 7 ≠ .encBreak b :=
  ⟨⟨rfl, ⟨_, rfl⟩, fun _ => nofun, fun _ => ⟨nofun, nofun, nofun, nofun⟩⟩, rfl, ⟨_, rfl⟩,
    fun _ => ⟨nofun, nofun, nofun, nofun⟩⟩

/-- `DEC.ESC` writes none of `total`, `cnt`, `phase`, `err`; `DEC.LIT` does not write `dstate`. -/
theorem witness_DecoderRegisterWriters :
    (Instr.decEsc.agent = .dec ∧ (∃ t, exec .decEsc (decAt [0] 0 .literal 0 0) = .next t) ∧
      (∀ b n, Instr.decEsc ≠ .decLit b ∧ Instr.decEsc ≠ .decVal b ∧ Instr.decEsc ≠ .lit b ∧ Instr.decEsc ≠ .run n b) ∧
      ∀ b n, Instr.decEsc ≠ .decCnt b ∧ Instr.decEsc ≠ .run n b) ∧
    (Instr.decLit 7).agent = .dec ∧ (∃ t, exec (.decLit 7) (decAt [7] 0 .literal 0 0) = .next t) ∧
      ∀ b, Instr.decLit 7 ≠ .decCnt b ∧ Instr.decLit 7 ≠ .decVal b :=
  ⟨⟨rfl, ⟨_, rfl⟩, fun _ _ => ⟨nofun, nofun, nofun, nofun⟩, fun _ _ => ⟨nofun, nofun⟩⟩, rfl, ⟨_, rfl⟩,
    fun _ => ⟨nofun, nofun⟩⟩

theorem witness_OnlyZeroCountOrTruncationFaults :
    ∃ t, exec .decEndT (hardened (decAt [0] 1 .readingCount 0 0)) = .next t ∧
      (hardened (decAt [0] 1 .readingCount 0 0)).dec.phase ≠ .fault ∧ t.dec.phase = .fault ∧
      (hardened (decAt [0] 1 .readingCount 0 0)).dec.err ≠ .invalidArgument :=
  ⟨_, rfl, by decide, rfl, by decide⟩

/-- An encoder that holds the largest run of its invariant, on the stream that made it. -/
theorem full_run_inv : (encAt (List.replicate 256 7) 255 true 7 254).enc.Inv :=
  ⟨nofun, by decide, fun _ => ⟨nofun, nofun⟩,
    (show 255 ≤ (List.replicate 256 (7 : Byte)).length by rw [List.length_replicate]; omega), nofun, by decide⟩

theorem witness_ExactlyOneEncoderStep :
    (encAt (List.replicate 256 7) 255 true 7 254).enc.Inv ∧ (encAt (List.replicate 256 7) 255 true 7 254).enc.phase = .run :=
  ⟨full_run_inv, rfl⟩

theorem witness_ExactlyOneDecoderStep :
    (decAt [0, 3] 2 .readingValue 3 0).dec.phase = .run ∧
      (decAt [0, 3] 2 .readingValue 3 0).dec.src.ipos ≤ (decAt [0, 3] 2 .readingValue 3 0).dec.src.bytes.length ∧
      (decAt [0, 3] 2 .readingValue 3 0).cfg.holds ((decAt [0, 3] 2 .readingValue 3 0).dec.total + 255) :=
  ⟨rfl, by decide, unbounded_holds _⟩

/-- One clause each, the unit event's token step both inside a descriptor and before a truncated one. -/
theorem witness_StepRunsTheSelectedInstruction :
    (∃ (s : State) (rest : List HostEvent) (tok : Token) (i : Instr), s.host = .token .enc :: rest ∧ s.enc.phase = .run ∧ s.enc.src.token = some tok ∧
      decodeEncStep s.enc.pendValid s.enc.pend s.enc.run tok = .ok i) ∧
    (∃ (s : State) (rest : List HostEvent) (tok : Token), s.host = .token .dec :: rest ∧ s.dec.phase = .run ∧ s.dec.src.token = some tok) ∧
    (∃ (s : State) (rest : List HostEvent) (i : Instr) (more : List Byte), s.host = .unit :: rest ∧ s.dec.phase = .run ∧ s.dec.dstate = .literal ∧
      decodeUnit (s.dec.src.bytes.drop s.dec.src.ipos) = .ok (i, more)) ∧
    (∃ (s : State) (rest : List HostEvent) (tok : Token), s.host = .unit :: rest ∧ s.dec.phase = .run ∧ s.dec.src.token = some tok ∧
      s.dec.dstate ≠ .literal) ∧
    (∃ (s : State) (rest : List HostEvent) (tok : Token), s.host = .unit :: rest ∧ s.dec.phase = .run ∧ s.dec.src.token = some tok ∧
      ∀ j more, decodeUnit (s.dec.src.bytes.drop s.dec.src.ipos) ≠ .ok (j, more)) ∧
    (∃ (s : State) (tok : Token) (i : Instr), s.host = [] ∧ s.enc.phase = .run ∧ s.dec.phase ≠ .run ∧
      s.enc.src.token = some tok ∧ decodeEncStep s.enc.pendValid s.enc.pend s.enc.run tok = .ok i) ∧
    (∃ (s : State) (tok : Token), s.host = [] ∧ s.enc.phase = .done ∧ s.dec.phase = .run ∧ s.dec.src.token = some tok) ∧
    (∃ (s : State) (tok tok' : Token) (i : Instr), s.host = [] ∧ s.enc.phase = .run ∧ s.dec.phase = .run ∧
      s.enc.src.token = some tok ∧ decodeEncStep s.enc.pendValid s.enc.pend s.enc.run tok = .ok i ∧
      s.dec.src.token = some tok') :=
  ⟨⟨withHost (encAt [7] 0 false 0 0) [.token .enc], [], .byte 7, .encFirst 7, rfl, rfl, rfl, rfl⟩,
    ⟨withHost State.reset [.token .dec], [], .eoi, rfl, rfl, rfl⟩,
    ⟨withHost (decAt [0, 1, 0] 0 .literal 0 0) [.unit], [], .esc1, [], rfl, rfl, rfl, rfl⟩,
    ⟨withHost (decAt [0, 5, 7] 1 .readingCount 0 0) [.unit], [], .byte 5, rfl, rfl, rfl, nofun⟩,
    ⟨withHost (decAt [0, 5] 0 .literal 0 0) [.unit], [], .byte 0, rfl, rfl, rfl, fun _ _ h => nomatch h⟩,
    ⟨{ State.reset with dec := { State.reset.dec with phase := .done } }, .eoi, .encEndEmpty, rfl, rfl, nofun, rfl, rfl⟩,
    ⟨{ State.reset with enc := { State.reset.enc with phase := .done } }, .eoi, rfl, rfl, rfl, rfl⟩,
    ⟨State.reset, .eoi, .eoi, .encEndEmpty, rfl, rfl, rfl, rfl, rfl, rfl⟩⟩

theorem witness_UnitsDecodeAsEncoded :
    (Instr.run 1 0).group = .wireUnit ∧ (Instr.run 1 0).wellFormed = true ∧ (Instr.run 255 0).wellFormed = true ∧
      (Instr.lit 1).wellFormed = true ∧ 2 ≤ (255 : Byte).toNat := by decide

theorem witness_UnitDecodingIsSound : decodeUnit [0x00, 0x01, 0x00, 0x05] = .ok (.esc1, [0x05]) := rfl

theorem witness_StepRowsReadTheirTokens :
    decodeEncStep true 7 254 (.byte 7) = .ok (.encCap 7) ∧ (Instr.decCnt 255).group = .decStep ∧
      (Instr.decCnt 255).wellFormed = true ∧ (Instr.encBreak 0).group = .encStep := ⟨rfl, rfl, rfl, rfl⟩

theorem witness_ResetStartsACall :
    (withHost State.reset [.reset .enc]).host = .reset .enc :: [] ∧
      (withHost State.reset [.reset .dec]).host = .reset .dec :: [] := ⟨rfl, rfl⟩

/-- Either input with either sink can be queued, for either agent, in a state whose encoder is `Done`. -/
theorem witness_LaunchStartsACall :
    (∀ l : Launch, (withHost { State.reset with enc := { State.reset.enc with phase := .done } } [.launch l]).host =
      .launch l :: []) ∧
      (withHost { State.reset with enc := { State.reset.enc with phase := .done } } []).enc.phase = .done ∧
      ∃ contents, SinkArg.own [9] = .own contents :=
  ⟨fun _ => rfl, rfl, _, rfl⟩

/-- Every clause's launch can be queued in the state after reset, whose encoder is in phase `Run`. -/
theorem witness_MeaninglessLaunchesAreRefused :
    (∀ l : Launch, (withHost State.reset [.launch l]).host = .launch l :: []) ∧
      (∀ l : Launch, (withHost State.reset [.launch l]).enc.phase = .run) ∧ (SinkArg.kept ≠ .absent) ∧
      ∃ contents, SinkArg.own [9] = .own contents :=
  ⟨fun _ => rfl, fun _ => rfl, nofun, _, rfl⟩

/-- The phases of a call that is over, for each agent. -/
theorem witness_AnOverCallTakesNoStep :
    (∃ s : State, s.enc.phase = .done ∧ s.dec.phase ≠ .run ∧ s.host = []) ∧
      (∃ s : State, s.host = .token .enc :: [] ∧ s.enc.phase = .done) ∧
      (∃ s : State, s.host = .token .dec :: [] ∧ s.dec.phase ≠ .run) ∧
      (∃ s : State, s.host = .unit :: [] ∧ s.dec.phase ≠ .run) ∧
      (Instr.emitLiteral 0).agent = .enc ∧ Instr.illegal.agent = .dec :=
  ⟨⟨{ State.reset with
      enc := { State.reset.enc with phase := .done }, dec := { State.reset.dec with phase := .fault } }, rfl, nofun, rfl⟩,
    ⟨{ State.reset with enc := { State.reset.enc with phase := .done }, host := [.token .enc] }, rfl, rfl⟩,
    ⟨{ State.reset with dec := { State.reset.dec with phase := .done }, host := [.token .dec] }, rfl, nofun⟩,
    ⟨{ State.reset with dec := { State.reset.dec with phase := .fault, err := .corruptData }, host := [.unit] }, rfl, nofun⟩,
    rfl, rfl⟩

/-- A step of one agent while the other's call is over. -/
theorem witness_AnOverCallIsStableUntilReset :
    (∃ s t : State, step s = .next t ∧ s.dec.phase ≠ .run) ∧ ∃ s t : State, step s = .next t ∧ s.enc.phase ≠ .run :=
  ⟨⟨{ State.reset with dec := { State.reset.dec with phase := .fault, err := .corruptData }, host := [.token .enc] }, _, rfl,
      nofun⟩,
    ⟨{ State.reset with enc := { State.reset.enc with phase := .done }, host := [.token .dec] }, _, rfl, nofun⟩⟩

theorem witness_StopsAreNamed :
    ((narrow (decAt [7] 0 .literal 0 7) 3).cfg.totalW = some 3 ∧ (narrow (decAt [7] 0 .literal 0 7) 3).dec.phase = .run ∧
      (narrow (decAt [7] 0 .literal 0 7) 3).dec.src.token = some (.byte 7) ∧ 2 ^ 3 ≤ 7 + 1) ∧
    ((narrow (decAt [0, 2, 7] 2 .readingValue 2 6) 3).cfg.totalW = some 3 ∧
      (narrow (decAt [0, 2, 7] 2 .readingValue 2 6) 3).dec.phase = .run ∧
      (narrow (decAt [0, 2, 7] 2 .readingValue 2 6) 3).dec.src.token = some (.byte 7) ∧ 2 ^ 3 ≤ 6 + (2 : Byte).toNat) ∧
    (Instr.emitRun 0 1).wellFormed = false ∧
    ((Instr.encStart 7).agent = .enc ∧ (Instr.encStart 7).group = .encStep ∧ (encAt [7] 1 true 7 0).enc.phase = .run ∧
      (encAt [7] 1 true 7 0).enc.src.ipos ≤ 1 ∧ 1 < (encAt [7] 2 true 7 0).enc.src.ipos) ∧
    Instr.illegal.agent = .dec ∧ (decAt [7] 1 .literal 0 0).dec.phase = .run ∧
      (decAt [7] 1 .literal 0 0).dec.src.ipos ≤ 1 ∧ 1 < (decAt [7] 2 .literal 0 0).dec.src.ipos := by decide

/-- A whole state of the invariant: an encoder that holds a full run, a decoder just reset, a token offered. -/
theorem full_run_state_inv : (withHost (encAt (List.replicate 256 7) 255 true 7 254) [.token .enc]).Inv :=
  ⟨full_run_inv, ⟨by decide, by decide, by decide, by decide, by decide, by decide, by decide⟩, fun _ h => nomatch h⟩

theorem witness_EveryStepKeepsTheInvariant :
    ∃ s t : State, s.Inv ∧ step s = .next t := ⟨_, _, full_run_state_inv, rfl⟩

/-- The first byte of a call: nothing emitted, nothing held. -/
theorem witness_EveryStepKeepsTheOutputCanonical :
    ∃ s t : State, s.Inv ∧ s.enc.Tracks ∧ step s = .next t := by
  refine ⟨withHost (encAt [7] 0 false 0 0) [.token .enc], _, ⟨⟨?_, ?_, ?_, ?_, ?_, ?_⟩, ⟨?_, ?_, ?_, ?_, ?_, ?_, ?_⟩, ?_⟩, ?_, rfl⟩
  case refine_14 => exact fun _ h => nomatch h
  case refine_15 =>
    refine ⟨rfl, rfl, fun k front h _ => ?_⟩
    have hk := congrArg List.length h
    rw [List.length_append, List.length_replicate] at hk
    have : k = 0 := by
      have h0 : (withHost (encAt [7] 0 false 0 0) [.token .enc]).enc.emittedPart.length = 0 := rfl
      omega
    rw [this]
  all_goals decide

theorem witness_NoCountByteWraps : ∃ s t : State, s.Inv ∧ step s = .next t := ⟨_, _, full_run_state_inv, rfl⟩

theorem witness_TheEncoderNeverFails :
    ∃ (s : State) (rest : List HostEvent), s.enc.Inv ∧ s.enc.phase = .run ∧ s.host = .token .enc :: rest :=
  ⟨_, [], full_run_state_inv.enc, rfl, rfl⟩

theorem witness_AgentsReadOnlyTheirOwnRecord :
    (∃ (i : Instr) (s s' t : State), i.agent = .enc ∧ s'.enc = s.enc ∧ s'.dec ≠ s.dec ∧ exec i s = .next t) ∧
      ∃ (i : Instr) (s s' t : State), i.agent = .dec ∧ s'.dec = s.dec ∧ s'.cfg = s.cfg ∧ s'.enc ≠ s.enc ∧
        exec i s = .next t :=
  ⟨⟨.encFirst 7, encAt [7] 0 false 0 0, { encAt [7] 0 false 0 0 with dec := (decAt [9] 1 .literal 0 1).dec }, _, rfl, rfl,
      by decide, rfl⟩,
    ⟨.decLit 7, decAt [7] 0 .literal 0 0, { decAt [7] 0 .literal 0 0 with enc := (encAt [9] 0 false 0 0).enc }, _, rfl, rfl,
      rfl, by decide, rfl⟩⟩

theorem witness_EveryScheduleEndsTheSame :
    ([.token .enc, .token .dec] : List HostEvent).Perm [.token .dec, .token .enc] ∧
      (∀ e ∈ ([.token .enc, .token .dec] : List HostEvent), ∃ a, e = .token a) ∧
      ∃ t, Host.Core.run Sys2Proof.core 2 { State.reset with host := [.token .enc, .token .dec] } = .next t :=
  ⟨List.Perm.swap .., by simp, _, rfl⟩

theorem witness_EncodeCallIsTheReferenceProgram :
    ∃ (s : State) (stream : List Byte) (rest : List HostEvent), s.enc.fresh ∧ s.enc.src.bytes = stream ∧
      s.host = List.replicate (stream.length + 1) (.token .enc) ++ rest :=
  ⟨withHost (encAt [7, 7, 0] 0 false 0 0) (List.replicate 4 (.token .enc)), [7, 7, 0], [], ⟨rfl, rfl, rfl, rfl, rfl⟩, rfl, rfl⟩

/-- One clause each: a stream that ends `Done`, one that is corrupt after a literal and a run (R214's earlier tokens), and one
that is truncated under `error`. -/
theorem witness_DecodeCallIsTheReferenceProgram :
    (∃ (s : State) (stream : List Byte) (rest : List HostEvent), s.dec.fresh ∧ s.dec.src.bytes = stream ∧
      ∃ out total ds, decodeRef s.cfg.trunc stream = .done out total ds ∧ s.cfg.holds total ∧
        s.host = List.replicate (stream.length + 1) (.token .dec) ++ rest) ∧
    (∃ (s : State) (stream : List Byte) (rest : List HostEvent), s.dec.fresh ∧ s.dec.src.bytes = stream ∧
      ∃ i out total ds, decodeRef s.cfg.trunc stream = .corrupt i ∧
        decodeRef .drop (stream.take i) = .done out total ds ∧ s.cfg.holds total ∧
        s.host = List.replicate (i + 1) (.token .dec) ++ rest) ∧
    ∃ (s : State) (stream : List Byte) (rest : List HostEvent), s.dec.fresh ∧ s.dec.src.bytes = stream ∧
      ∃ i out total ds, decodeRef s.cfg.trunc stream = .corrupt i ∧
        decodeRef .drop (stream.take i) = .done out total ds ∧ s.cfg.holds total ∧
        s.host = List.replicate (i + 1) (.token .dec) ++ rest :=
  ⟨⟨withHost (decAt [0, 5] 0 .literal 0 0) (List.replicate 3 (.token .dec)), [0, 5], [], ⟨rfl, rfl, rfl, rfl, rfl, rfl⟩, rfl,
      [], 0, .readingValue, rfl, unbounded_holds _, rfl⟩,
    ⟨withHost (decAt [9, 0, 2, 7, 0, 0] 0 .literal 0 0) (List.replicate 6 (.token .dec)), [9, 0, 2, 7, 0, 0], [],
      ⟨rfl, rfl, rfl, rfl, rfl, rfl⟩, rfl, 5, [9, 7, 7], 3, .readingCount, rfl, rfl, unbounded_holds _, rfl⟩,
    ⟨withHost (hardened (decAt [9, 0] 0 .literal 0 0)) (List.replicate 3 (.token .dec)), [9, 0], [],
      ⟨rfl, rfl, rfl, rfl, rfl, rfl⟩, rfl, 2, [9], 1, .readingCount, rfl, rfl, (fun _ h => nomatch h), rfl⟩⟩

theorem witness_MachineRoundTrip :
    ∃ (s : State) (stream : List Byte) (rest : List HostEvent), s.enc.fresh ∧ s.enc.src.bytes = stream ∧
      s.cfg.holds stream.length ∧
      s.host = List.replicate (stream.length + 1) (.token .enc) ++
        .launch { agent := .dec, input := .encoderOutput, sink := .kept } ::
          (List.replicate ((encodeRef stream).length + 1) (.token .dec) ++ rest) :=
  ⟨withHost (encAt [0] 0 false 0 0) (List.replicate 2 (.token .enc) ++
      .launch { agent := .dec, input := .encoderOutput, sink := .kept } :: List.replicate 4 (.token .dec)),
    [0], [], ⟨rfl, rfl, rfl, rfl, rfl⟩, rfl, unbounded_holds _, rfl⟩

theorem witness_MinimalInputIsUnchanged :
    List.IsChain (fun x y : Byte => x ≠ y) [0x68, 0x65, 0x68] ∧ (0x00 : Byte) ∉ ([0x68, 0x65, 0x68] : List Byte) := by decide

/-- Both values of `v` that the clauses tell apart. -/
theorem witness_RunsSplitAt255 : (1 : Byte) ≠ 0x00 ∧ (0 : Byte) = 0x00 := by decide

theorem witness_OutputIsBounded :
    ((Instr.encCap 7).agent = .enc ∧ ∃ t, exec (.encCap 7) (encAt [7, 7] 1 true 7 254) = .next t) ∧
      ((Instr.decVal 7).agent = .dec ∧ ∃ t, exec (.decVal 7) (decAt [0, 3, 7] 2 .readingValue 3 0) = .next t) ∧
      ∃ out total ds, decodeRef .drop [0, 3, 7, 8, 9] = .done out total ds :=
  ⟨⟨rfl, _, rfl⟩, ⟨rfl, _, rfl⟩, _, _, _, rfl⟩

/-- One stream of each class. -/
theorem witness_StreamsDecodeByTheirClass :
    classify [0, 1, 0, 7] = .wellFormed [.esc1, .lit 7] ∧ classify [7, 0, 0, 7] = .corrupt 2 ∧
      classify [7, 0, 5] = .truncated [.lit 7] ∧ classify [0] = .truncated [] := by decide

theorem witness_DecodingDistributes :
    classify [0, 2, 7] = .wellFormed [.run 2 7] ∧ decodeRef .drop [0, 5] = .done [] 0 .readingValue ∧
      decodeRef .error [0, 5] = .corrupt 2 := by decide

theorem witness_CanonicalStreamsAreRecognised :
    classify [0, 2, 7, 8] = .wellFormed [.run 2 7, .lit 8] ∧ canonicalUnits [.run 2 7, .lit 8] = true ∧
      classify [7, 7] = .wellFormed [.lit 7, .lit 7] ∧ canonicalUnits [.lit 7, .lit 7] = false := by decide

end Sys2Proof.Tests
end

