-- ==== Sys2Proof/Proofs/Selection.lean ====
section
/-!
PROOF. Which instruction a step runs: what an agent's record selects, what the head of the host's queue makes of it, and the
agent that moves when the queue is empty.
-/

namespace Sys2Proof.Machine

/-! ### What an agent's record selects -/

theorem Enc.nextStep_of_token {e : Enc} {tok : Token} {i : Instr} (hphase : e.phase = .run)
    (htok : e.src.token = some tok) (hrow : decodeEncStep e.pendValid e.pend e.run tok = .ok i) :
    e.nextStep = .next i := by
  simp [Enc.nextStep, hphase, htok, hrow]

theorem Dec.nextStep_of_token {d : Dec} {tok : Token} (hphase : d.phase = .run) (htok : d.src.token = some tok) :
    d.nextStep = .next (decodeDecStep d.dstate tok) := by
  simp [Dec.nextStep, hphase, htok]

theorem Dec.nextUnit_of_unit {d : Dec} {i : Instr} {more : List Byte} (hphase : d.phase = .run)
    (hds : d.dstate = .literal) (hunit : decodeUnit (d.src.bytes.drop d.src.ipos) = .ok (i, more)) :
    d.nextUnit = .next i := by
  simp [Dec.nextUnit, hphase, hds, hunit]

/-- Inside a descriptor, or before a truncated unit, the unit event is a token step (R162). -/
theorem Dec.nextUnit_of_no_unit {d : Dec}
    (h : d.dstate ≠ .literal ∨ ∀ j more, decodeUnit (d.src.bytes.drop d.src.ipos) ≠ .ok (j, more)) :
    d.nextUnit = d.nextStep := by
  rw [Dec.nextUnit]
  split
  case h_1 j more _ hds hunit => exact h.elim (absurd hds) fun hnone => absurd hunit (hnone j more)
  case h_2 => rfl

/-! ### What the host's queue makes of it -/

theorem step_of_token_event {s : State} {a : Agent} {rest : List HostEvent} {i : Instr}
    (hhost : s.host = .token a :: rest) (hsel : s.nextStep a = .next i) : step s = exec i { s with host := rest } := by
  simp [step, hhost, hsel, runFetched]

theorem step_of_unit_event {s : State} {rest : List HostEvent} {i : Instr}
    (hhost : s.host = .unit :: rest) (hsel : s.dec.nextUnit = .next i) : step s = exec i { s with host := rest } := by
  simp [step, hhost, hsel, runFetched]

theorem step_of_no_event {s : State} {a : Agent} {i : Instr}
    (hhost : s.host = []) (hlive : s.liveAgent = some a) (hsel : s.nextStep a = .next i) :
    step s = exec i s.afterChoice := by
  simp [step, hhost, hlive, hsel, runFetched]

/-! ### The agent that moves with no event queued -/

theorem Enc.over_of_run {e : Enc} (h : e.phase = .run) : e.over = false := by simp [Enc.over, h]
theorem Enc.over_of_done {e : Enc} (h : e.phase = .done) : e.over = true := by simp [Enc.over, h]
theorem Dec.over_of_run {d : Dec} (h : d.phase = .run) : d.over = false := by simp [Dec.over, h]
theorem Dec.over_of_ne_run {d : Dec} (h : d.phase ≠ .run) : d.over = true := by
  rw [Dec.over]; split <;> simp_all

theorem step_of_encoder_live {s : State} {i : Instr} (hhost : s.host = []) (henc : s.enc.phase = .run)
    (hdec : s.dec.phase ≠ .run) (hsel : s.enc.nextStep = .next i) : step s = exec i s := by
  have hE := Enc.over_of_run henc
  have hD := Dec.over_of_ne_run hdec
  have hlive : s.liveAgent = some .enc := by simp [State.liveAgent, hE, hD]
  have hstay : s.afterChoice = s := by simp [State.afterChoice, hE, hD]
  rw [step_of_no_event hhost hlive hsel, hstay]

theorem step_of_decoder_live {s : State} {j : Instr} (hhost : s.host = []) (henc : s.enc.phase = .done)
    (hdec : s.dec.phase = .run) (hsel : s.dec.nextStep = .next j) : step s = exec j s := by
  have hE := Enc.over_of_done henc
  have hD := Dec.over_of_run hdec
  have hlive : s.liveAgent = some .dec := by simp [State.liveAgent, hE, hD]
  have hstay : s.afterChoice = s := by simp [State.afterChoice, hE, hD]
  rw [step_of_no_event hhost hlive hsel, hstay]

/-- Either agent may move (R224): the free value picks, and the pick is counted. -/
theorem step_of_both_live {s : State} {i j : Instr} (hhost : s.host = []) (henc : s.enc.phase = .run)
    (hdec : s.dec.phase = .run) (hi : s.enc.nextStep = .next i) (hj : s.dec.nextStep = .next j) :
    step s = match Config.freeTurn s.turns with
      | .enc => exec i { s with turns := s.turns + 1 }
      | .dec => exec j { s with turns := s.turns + 1 } := by
  have hE := Enc.over_of_run henc
  have hD := Dec.over_of_run hdec
  have hlive : s.liveAgent = some (Config.freeTurn s.turns) := by simp [State.liveAgent, hE, hD]
  have hcount : s.afterChoice = { s with turns := s.turns + 1 } := by simp [State.afterChoice, hE, hD]
  cases hturn : Config.freeTurn s.turns with
  | enc => exact hcount ▸ step_of_no_event (a := .enc) hhost (hturn ▸ hlive) hi
  | dec => exact hcount ▸ step_of_no_event (a := .dec) hhost (hturn ▸ hlive) hj

/-- Settles O30: each clause is the lemma on its kind of event, or of live agents, fed with what the record selects. -/
theorem stepRunsTheSelectedInstruction : Obligations.StepRunsTheSelectedInstruction := by
  intro s rest i
  refine ⟨?encToken, ?decToken, ?unit, ?noUnit, ?encLive, ?decLive, ?bothLive⟩
  case encToken =>
    intro tok hhost hphase htok hrow
    exact step_of_token_event hhost (Enc.nextStep_of_token hphase htok hrow)
  case decToken =>
    rintro tok hhost hphase htok rfl
    exact step_of_token_event hhost (Dec.nextStep_of_token hphase htok)
  case unit =>
    intro more hhost hphase hds hunit
    exact step_of_unit_event hhost (Dec.nextUnit_of_unit hphase hds hunit)
  case noUnit =>
    rintro tok hhost hphase htok hnone rfl
    exact step_of_unit_event hhost ((Dec.nextUnit_of_no_unit hnone).trans (Dec.nextStep_of_token hphase htok))
  case encLive =>
    intro tok hhost henc hdec htok hrow
    exact step_of_encoder_live hhost henc hdec (Enc.nextStep_of_token henc htok hrow)
  case decLive =>
    rintro tok hhost henc hdec htok rfl
    exact step_of_decoder_live hhost henc hdec (Dec.nextStep_of_token hdec htok)
  case bothLive =>
    rintro tok tok' j hhost henc hdec htok hrow htok' rfl
    exact step_of_both_live hhost henc hdec (Enc.nextStep_of_token henc htok hrow) (Dec.nextStep_of_token hdec htok')

end Sys2Proof.Machine
end

