-- ==== Sys2Proof/Proofs/Effects.lean ====
section
/-!
PROOF. What an instruction that gives a next state has found and written, as a relation on its own agent's record: one
constructor per row, with the row's condition as premises and the new record written out. `exec_enc_iff` and `exec_dec_iff`
tie the two relations to `exec`; the frames, the writers and the invariant are case analyses of them.
-/

namespace Sys2Proof.Machine

/-! ### The conditions of the rows, as propositions -/

@[simp] theorem Enc.pendIs_eq_true {e : Enc} {b : Byte} : e.pendIs b = true ↔ e.pendValid = true ∧ b = e.pend := by
  simp [Enc.pendIs]

@[simp] theorem Enc.pendIsNot_eq_true {e : Enc} {b : Byte} :
    e.pendIsNot b = true ↔ e.pendValid = true ∧ b ≠ e.pend := by
  simp [Enc.pendIsNot]

@[simp] theorem Enc.runZero_eq_true {e : Enc} : e.runZero = true ↔ e.run = 0 := by simp [Enc.runZero]

@[simp] theorem Enc.runExtends_eq_true {e : Enc} : e.runExtends = true ↔ 1 ≤ e.run.toNat ∧ e.run.toNat ≤ 253 := by
  simp [Enc.runExtends]

@[simp] theorem Enc.runFull_eq_true {e : Enc} : e.runFull = true ↔ e.run = Config.runCap := by simp [Enc.runFull]

@[simp] theorem Enc.runHeld_eq_true {e : Enc} : e.runHeld = true ↔ 1 ≤ e.run.toNat ∧ e.run.toNat ≤ 254 := by
  simp [Enc.runHeld]

theorem Source.startsWith_cons_le {x : Source} {b : Byte} {bs : List Byte} (h : x.startsWith (b :: bs) = true) :
    x.ipos + (bs.length + 1) ≤ x.bytes.length := by
  have hlen : min (bs.length + 1) (x.bytes.length - x.ipos) = bs.length + 1 := by
    simpa [Source.startsWith] using congrArg List.length (eq_of_beq h)
  omega

/-- Where the bytes of a unit stand at the cursor there is a token. -/
theorem unitStep_cons_next {b : Byte} {bs : List Byte} {sel : Bool} {after : Option Dec} {s t : State} :
    unitStep (b :: bs) sel after s = .next t ↔
      s.dec.phase = .run ∧ s.dec.dstate = .literal ∧ s.dec.src.startsWith (b :: bs) = true ∧ sel = true ∧
        ∃ d, after = some d ∧ { s with dec := d } = t := by
  rw [unitStep_next]
  constructor
  · rintro ⟨hphase, -, hrest⟩
    exact ⟨hphase, hrest⟩
  · rintro ⟨hphase, hds, hbytes, hrest⟩
    have hle := Source.startsWith_cons_le hbytes
    exact ⟨hphase, Source.token_exists (by omega), hds, hbytes, hrest⟩

/-! ### The encoder -/

/-- `e.Effect i e'`: in the record `e` the row of `i` is selected (R110), and `i` leaves the record `e'` (R111 to R119,
R141, R142). -/
inductive Enc.Effect (e : Enc) : Instr → Enc → Prop
  | encFirst (b : Byte) (htok : e.src.token = some (.byte b)) (hpv : e.pendValid = false) (hrun : e.run = 0) :
    Effect e (.encFirst b) { e with pend := b, pendValid := true, src := e.src.advance }
  | encStart (b : Byte) (htok : e.src.token = some (.byte b)) (hpv : e.pendValid = true) (hb : b = e.pend)
      (hrun : e.run = 0) :
    Effect e (.encStart b) { e with run := 1, src := e.src.advance }
  | encSingle (b : Byte) (htok : e.src.token = some (.byte b)) (hpv : e.pendValid = true) (hb : b ≠ e.pend)
      (hrun : e.run = 0) :
    Effect e (.encSingle b) { e with sink := e.sink.emitLiteral e.pend, pend := b, src := e.src.advance }
  | encExtend (b : Byte) (htok : e.src.token = some (.byte b)) (hpv : e.pendValid = true) (hb : b = e.pend)
      (hrun : 1 ≤ e.run.toNat) (hrun' : e.run.toNat ≤ 253) :
    Effect e (.encExtend b) { e with run := e.runNext, src := e.src.advance }
  | encCap (b : Byte) (htok : e.src.token = some (.byte b)) (hpv : e.pendValid = true) (hb : b = e.pend)
      (hrun : e.run = Config.runCap) :
    Effect e (.encCap b)
      { e with sink := e.sink.emitRun e.pend Config.maxCount, pend := b, run := 0, src := e.src.advance }
  | encBreak (b : Byte) (htok : e.src.token = some (.byte b)) (hpv : e.pendValid = true) (hb : b ≠ e.pend)
      (hrun : 1 ≤ e.run.toNat) (hrun' : e.run.toNat ≤ 254) :
    Effect e (.encBreak b)
      { e with sink := e.sink.emitRun e.pend e.countByte, pend := b, run := 0, src := e.src.advance }
  | encEndRun (htok : e.src.token = some .eoi) (hpv : e.pendValid = true)
      (hrun : 1 ≤ e.run.toNat) (hrun' : e.run.toNat ≤ 254) :
    Effect e .encEndRun { e with sink := e.sink.emitRun e.pend e.countByte, phase := .done }
  | encEndLit (htok : e.src.token = some .eoi) (hpv : e.pendValid = true) (hrun : e.run = 0) :
    Effect e .encEndLit { e with sink := e.sink.emitLiteral e.pend, phase := .done }
  | encEndEmpty (htok : e.src.token = some .eoi) (hpv : e.pendValid = false) (hrun : e.run = 0) :
    Effect e .encEndEmpty { e with phase := .done }
  | emitLiteral (x : Byte) : Effect e (.emitLiteral x) { e with sink := e.sink.emitLiteral x }
  | emitRun (x n : Byte) (hn : 2 ≤ n.toNat) : Effect e (.emitRun x n) { e with sink := e.sink.emitRun x n }

theorem exec_enc_effect {i : Instr} {s t : State} (hi : i.agent = .enc) (h : exec i s = .next t) :
    s.enc.phase = .run ∧ ∃ e, s.enc.Effect i e ∧ { s with enc := e } = t := by
  cases i
  case encFirst | encStart | encSingle | encExtend | encCap | encBreak | encEndRun | encEndLit | encEndEmpty =>
    obtain ⟨hphase, htok, hsel, rfl⟩ := encStep_next.1 h
    exact ⟨hphase, _, by constructor <;> simp_all, rfl⟩
  case emitLiteral x =>
    obtain ⟨hphase, -, rfl⟩ := emitterStep_next.1 h
    exact ⟨hphase, _, .emitLiteral x, rfl⟩
  case emitRun x n =>
    obtain ⟨hphase, hn, rfl⟩ := emitterStep_next.1 h
    exact ⟨hphase, _, .emitRun x n (by simpa using hn), rfl⟩
  all_goals nomatch hi

theorem Enc.Effect.exec_next {i : Instr} {s : State} {e : Enc} (hphase : s.enc.phase = .run)
    (heff : s.enc.Effect i e) : exec i s = .next { s with enc := e } := by
  cases heff
  case emitLiteral => exact emitterStep_next.2 ⟨hphase, rfl, rfl⟩
  case emitRun x n hn => exact emitterStep_next.2 ⟨hphase, by simpa using hn, rfl⟩
  all_goals exact encStep_next.2 ⟨hphase, by assumption, by simp [*], rfl⟩

/-- An instruction of the encoder gives a next state exactly in phase `Run` and where its row has an effect, and writes that
effect alone. -/
theorem exec_enc_iff {i : Instr} {s t : State} (hi : i.agent = .enc) :
    exec i s = .next t ↔ s.enc.phase = .run ∧ ∃ e, s.enc.Effect i e ∧ { s with enc := e } = t := by
  constructor
  · exact exec_enc_effect hi
  · rintro ⟨hphase, e, heff, rfl⟩
    exact heff.exec_next hphase

/-! ### The decoder -/

/-- `d.Effect cfg i d'`: in the record `d` the row of `i` is selected (R151, R162) and a finite `TOTAL_W` can hold the new
total (R182), and `i` leaves the record `d'` (R152 to R160, R86). -/
inductive Dec.Effect (cfg : Params) (d : Dec) : Instr → Dec → Prop
  | lit (b : Byte) (hds : d.dstate = .literal) (hbytes : d.src.startsWith (encode (.lit b)) = true)
      (hb : b ≠ Config.esc) (hfits : cfg.holds (d.total + 1)) :
    Effect cfg d (.lit b) { d with total := d.total + 1, sink := d.sink.emit b, src := d.src.advance }
  | run (n v : Byte) (hds : d.dstate = .literal) (hbytes : d.src.startsWith (encode (.run n v)) = true)
      (hn : n ≠ 0) (hfits : cfg.holds (d.total + n.toNat)) :
    Effect cfg d (.run n v)
      { d with
        total := d.total + n.toNat, sink := d.sink.emitAll (List.replicate n.toNat v), cnt := n
        dstate := .literal, src := d.src.advance.advance.advance }
  | esc1 (hds : d.dstate = .literal) (hbytes : d.src.startsWith (encode .esc1) = true)
      (hfits : cfg.holds (d.total + 1)) :
    Effect cfg d .esc1
      { d with
        total := d.total + 1, sink := d.sink.emit Config.esc, cnt := 1
        dstate := .literal, src := d.src.advance.advance.advance }
  | illegal (hds : d.dstate = .literal) (hbytes : d.src.startsWith (encode .illegal) = true) :
    Effect cfg d .illegal d.afterEsc.raiseCorruptData
  | decLit (b : Byte) (htok : d.src.token = some (.byte b)) (hds : d.dstate = .literal) (hb : b ≠ Config.esc)
      (hfits : cfg.holds (d.total + 1)) :
    Effect cfg d (.decLit b) { d with total := d.total + 1, sink := d.sink.emit b, src := d.src.advance }
  | decEsc (htok : d.src.token = some (.byte Config.esc)) (hds : d.dstate = .literal) :
    Effect cfg d .decEsc d.afterEsc
  | decCnt (b : Byte) (htok : d.src.token = some (.byte b)) (hds : d.dstate = .readingCount) (hb : b ≠ 0) :
    Effect cfg d (.decCnt b) (d.afterCnt b)
  | decCnt0 (htok : d.src.token = some (.byte 0)) (hds : d.dstate = .readingCount) :
    Effect cfg d .decCnt0 d.raiseCorruptData
  | decVal (b : Byte) (htok : d.src.token = some (.byte b)) (hds : d.dstate = .readingValue)
      (hfits : cfg.holds (d.total + d.cnt.toNat)) :
    Effect cfg d (.decVal b)
      { d with
        total := d.total + d.cnt.toNat, sink := d.sink.emitAll (List.replicate d.cnt.toNat b)
        dstate := .literal, src := d.src.advance }
  | decEndL (htok : d.src.token = some .eoi) (hds : d.dstate = .literal) : Effect cfg d .decEndL d.afterEnd
  | decEndTDrop (htok : d.src.token = some .eoi) (hds : d.dstate ≠ .literal) (hpolicy : cfg.trunc = .drop) :
    Effect cfg d .decEndT d.afterEnd
  | decEndTError (htok : d.src.token = some .eoi) (hds : d.dstate ≠ .literal) (hpolicy : cfg.trunc = .error) :
    Effect cfg d .decEndT d.raiseCorruptData

theorem exec_dec_effect {i : Instr} {s t : State} (hi : i.agent = .dec) (h : exec i s = .next t) :
    s.dec.phase = .run ∧ ∃ d, s.dec.Effect s.cfg i d ∧ { s with dec := d } = t := by
  cases i
  case lit b =>
    obtain ⟨hphase, hds, hbytes, hb, d, hd, rfl⟩ := unitStep_cons_next.1 h
    obtain ⟨hfits, rfl⟩ := Dec.afterLit_some.1 hd
    exact ⟨hphase, _, .lit b hds hbytes (by simpa using hb) hfits, rfl⟩
  case run n v =>
    obtain ⟨hphase, hds, hbytes, hn, d, hd, rfl⟩ := unitStep_cons_next.1 h
    obtain ⟨hfits, rfl⟩ := Dec.afterRun_some.1 hd
    exact ⟨hphase, _, .run n v hds hbytes (by simpa using hn) hfits, rfl⟩
  case esc1 =>
    obtain ⟨hphase, hds, hbytes, -, d, hd, rfl⟩ := unitStep_cons_next.1 h
    obtain ⟨hfits, rfl⟩ := Dec.afterRun_some.1 hd
    exact ⟨hphase, _, .esc1 hds hbytes hfits, rfl⟩
  case illegal =>
    obtain ⟨hphase, hds, hbytes, -, d, ⟨⟩, rfl⟩ := unitStep_cons_next.1 h
    exact ⟨hphase, _, .illegal hds hbytes, rfl⟩
  case decLit b =>
    obtain ⟨hphase, htok, hsel, d, hd, rfl⟩ := decStep_next.1 h
    obtain ⟨hfits, rfl⟩ := Dec.afterLit_some.1 hd
    obtain ⟨hds, hb⟩ : s.dec.dstate = .literal ∧ b ≠ Config.esc := by simpa using hsel
    exact ⟨hphase, _, .decLit b htok hds hb hfits, rfl⟩
  case decVal b =>
    obtain ⟨hphase, htok, hsel, d, hd, rfl⟩ := decStep_next.1 h
    obtain ⟨hfits, rfl⟩ := Dec.afterVal_some.1 hd
    exact ⟨hphase, _, .decVal b htok (by simpa using hsel) hfits, rfl⟩
  case decEndT =>
    obtain ⟨hphase, htok, hsel, d, ⟨⟩, rfl⟩ := decStep_next.1 h
    have hds : s.dec.dstate ≠ .literal := by simpa using hsel
    cases hpolicy : s.cfg.trunc
    · exact ⟨hphase, _, .decEndTDrop htok hds hpolicy, rfl⟩
    · exact ⟨hphase, _, .decEndTError htok hds hpolicy, rfl⟩
  case decEsc | decCnt | decCnt0 | decEndL =>
    obtain ⟨hphase, htok, hsel, d, ⟨⟩, rfl⟩ := decStep_next.1 h
    exact ⟨hphase, _, by constructor <;> simp_all, rfl⟩
  all_goals nomatch hi

theorem Dec.Effect.exec_next {i : Instr} {s : State} {d : Dec} (hphase : s.dec.phase = .run)
    (heff : s.dec.Effect s.cfg i d) : exec i s = .next { s with dec := d } := by
  cases heff
  case lit b hds hbytes hb hfits =>
    exact unitStep_cons_next.2 ⟨hphase, hds, hbytes, by simpa using hb, _, Dec.afterLit_some.2 ⟨hfits, rfl⟩, rfl⟩
  case run n v hds hbytes hn hfits =>
    exact unitStep_cons_next.2 ⟨hphase, hds, hbytes, by simpa using hn, _, Dec.afterRun_some.2 ⟨hfits, rfl⟩, rfl⟩
  case esc1 hds hbytes hfits =>
    exact unitStep_cons_next.2 ⟨hphase, hds, hbytes, rfl, _, Dec.afterRun_some.2 ⟨hfits, rfl⟩, rfl⟩
  case illegal hds hbytes =>
    exact unitStep_cons_next.2 ⟨hphase, hds, hbytes, rfl, _, rfl, rfl⟩
  case decLit b htok hds hb hfits =>
    exact decStep_next.2 ⟨hphase, htok, by simp [hds, hb], _, Dec.afterLit_some.2 ⟨hfits, rfl⟩, rfl⟩
  case decCnt b htok hds hb => exact decStep_next.2 ⟨hphase, htok, by simpa [hds] using hb, _, rfl, rfl⟩
  case decVal b htok hds hfits =>
    exact decStep_next.2 ⟨hphase, htok, by simp [hds], _, Dec.afterVal_some.2 ⟨hfits, rfl⟩, rfl⟩
  case decEndTDrop htok hds hpolicy =>
    exact decStep_next.2 ⟨hphase, htok, by simp [hds], _, by rw [hpolicy]; rfl, rfl⟩
  case decEndTError htok hds hpolicy =>
    exact decStep_next.2 ⟨hphase, htok, by simp [hds], _, by rw [hpolicy]; rfl, rfl⟩
  all_goals exact decStep_next.2 ⟨hphase, by assumption, by simp [*], _, rfl, rfl⟩

/-- An instruction of the decoder gives a next state exactly in phase `Run` and where its row has an effect, and writes that
effect alone. -/
theorem exec_dec_iff {i : Instr} {s t : State} (hi : i.agent = .dec) :
    exec i s = .next t ↔ s.dec.phase = .run ∧ ∃ d, s.dec.Effect s.cfg i d ∧ { s with dec := d } = t := by
  constructor
  · exact exec_dec_effect hi
  · rintro ⟨hphase, d, heff, rfl⟩
    exact heff.exec_next hphase

end Sys2Proof.Machine
end

