-- ==== Sys2Proof/Proofs/Frames.lean ====
section
/-!
PROOF. What an instruction leaves unchanged: the other agent's record, every byte of its own streams it does not name, and
each register it is no writer of; and that it reads nothing of the other agent.
-/

namespace Sys2Proof.Machine

/-! ### The streams and the sink (R30, R51, R60) -/

/-- Moving a cursor by `n` and appending `bs` to a sink leaves all else of the two as it was. -/
theorem frame_of_advance_of_emitAll {x x' : Source} {k k' : Sink} {n : Nat} {bs : List Byte}
    (hsrc : x' = { x with ipos := x.ipos + n }) (hsink : k' = k.emitAll bs) :
    x'.bytes = x.bytes ∧ x'.ipos = x.ipos + n ∧ k'.base = k.base ∧ k'.olen = k.olen + bs.length ∧
      (∀ j, j < bs.length → k'.out.read (k.olen + j) = bs[j]?) ∧
      ∀ a, a < k.olen ∨ k.olen + bs.length ≤ a → k'.out.read a = k.out.read a := by
  subst hsrc hsink
  refine ⟨rfl, rfl, Sink.emitAll_base k bs, Sink.emitAll_olen k bs, fun j hj => ?_, fun a ha => ?_⟩
  · rw [Sink.read_emitAll, if_pos (by omega), Nat.add_sub_cancel_left]
  · rw [Sink.read_emitAll, if_neg (by omega)]

theorem Enc.Effect.src_eq {e e' : Enc} {i : Instr} (h : e.Effect i e') :
    e'.src = { e.src with ipos := e.src.ipos + consumed i } := by
  cases h <;> rfl

theorem Enc.Effect.sink_eq {s : State} {e : Enc} {i : Instr} (h : s.enc.Effect i e) :
    e.sink = s.enc.sink.emitAll (appended s i) := by
  cases h <;> rfl

theorem Dec.Effect.src_eq {cfg : Params} {d d' : Dec} {i : Instr} (h : d.Effect cfg i d') :
    d'.src = { d.src with ipos := d.src.ipos + consumed i } := by
  cases h <;> rfl

theorem Dec.Effect.sink_eq {s : State} {d : Dec} {i : Instr} (h : s.dec.Effect s.cfg i d) :
    d.sink = s.dec.sink.emitAll (appended s i) := by
  cases h <;> rfl

/-- Settles O23: the record the effect leaves has its cursor moved and its sink appended to, and nothing else is written. -/
theorem encoderFrame : Obligations.EncoderFrame := by
  intro i s t hi h
  obtain ⟨-, e, heff, rfl⟩ := (exec_enc_iff hi).1 h
  exact ⟨rfl, rfl, rfl, rfl, frame_of_advance_of_emitAll heff.src_eq heff.sink_eq⟩

/-- Settles O24: as for the encoder; a unit's effect is that of its token steps together. -/
theorem decoderFrame : Obligations.DecoderFrame := by
  intro i s t hi h
  obtain ⟨-, d, heff, rfl⟩ := (exec_dec_iff hi).1 h
  exact ⟨rfl, rfl, rfl, rfl, frame_of_advance_of_emitAll heff.src_eq heff.sink_eq⟩

/-! ### The writers of the encoder's registers (R21, R22, R24, R140) -/

theorem Enc.Effect.pendValid_eq {e e' : Enc} {i : Instr} (h : e.Effect i e') (hi : ∀ b, i ≠ .encFirst b) :
    e'.pendValid = e.pendValid := by
  cases h
  case encFirst b _ _ _ => exact absurd rfl (hi b)
  all_goals rfl

theorem Enc.Effect.pend_eq {e e' : Enc} {i : Instr} (h : e.Effect i e')
    (hi : ∀ b, i ≠ .encFirst b ∧ i ≠ .encSingle b ∧ i ≠ .encCap b ∧ i ≠ .encBreak b) : e'.pend = e.pend := by
  cases h
  case encFirst | encSingle | encCap | encBreak => simp at hi
  all_goals rfl

theorem Enc.Effect.run_eq {e e' : Enc} {i : Instr} (h : e.Effect i e')
    (hi : ∀ b, i ≠ .encStart b ∧ i ≠ .encExtend b ∧ i ≠ .encCap b ∧ i ≠ .encBreak b) : e'.run = e.run := by
  cases h
  case encStart | encExtend | encCap | encBreak => simp at hi
  all_goals rfl

theorem Enc.Effect.phase_eq {e e' : Enc} {i : Instr} (h : e.Effect i e') (hrun : i ≠ .encEndRun) (hlit : i ≠ .encEndLit)
    (hempty : i ≠ .encEndEmpty) : e'.phase = e.phase := by
  cases h
  case encEndRun | encEndLit | encEndEmpty => contradiction
  all_goals rfl

/-- Settles O25: one lemma per register, each by the rows that write it. -/
theorem encoderRegisterWriters : Obligations.EncoderRegisterWriters := by
  intro i s t hi h
  obtain ⟨-, e, heff, rfl⟩ := (exec_enc_iff hi).1 h
  exact ⟨heff.pendValid_eq, heff.pend_eq, heff.run_eq, heff.phase_eq⟩

/-! ### The writers of the decoder's registers (R25 to R29) -/

theorem Dec.Effect.total_eq {cfg : Params} {d d' : Dec} {i : Instr} (h : d.Effect cfg i d')
    (hi : ∀ b n, i ≠ .decLit b ∧ i ≠ .decVal b ∧ i ≠ .lit b ∧ i ≠ .run n b) (hesc : i ≠ .esc1) :
    d'.total = d.total := by
  cases h
  case decLit | decVal | lit | run => simp at hi
  case esc1 => exact absurd rfl hesc
  all_goals rfl

theorem Dec.Effect.cnt_eq {cfg : Params} {d d' : Dec} {i : Instr} (h : d.Effect cfg i d')
    (hi : ∀ b n, i ≠ .decCnt b ∧ i ≠ .run n b) (hesc : i ≠ .esc1) : d'.cnt = d.cnt := by
  cases h
  case decCnt | run => simp at hi
  case esc1 => exact absurd rfl hesc
  all_goals rfl

/-- `RUN` and `ESC1` come back to the `Literal` they start in, so they are no writers of `dstate`. -/
theorem Dec.Effect.dstate_eq {cfg : Params} {d d' : Dec} {i : Instr} (h : d.Effect cfg i d')
    (hi : ∀ b, i ≠ .decCnt b ∧ i ≠ .decVal b) (hesc : i ≠ .decEsc) (hillegal : i ≠ .illegal) :
    d'.dstate = d.dstate := by
  cases h
  case decCnt | decVal => simp at hi
  case decEsc | illegal => contradiction
  case run | esc1 => exact Eq.symm ‹d.dstate = .literal›
  all_goals rfl

theorem Dec.Effect.phase_eq {cfg : Params} {d d' : Dec} {i : Instr} (h : d.Effect cfg i d') (hendL : i ≠ .decEndL)
    (hendT : i ≠ .decEndT) (hcnt : i ≠ .decCnt0) (hillegal : i ≠ .illegal) : d'.phase = d.phase := by
  cases h
  case decEndL | decEndTDrop | decEndTError | decCnt0 | illegal => contradiction
  all_goals rfl

theorem Dec.Effect.err_eq {cfg : Params} {d d' : Dec} {i : Instr} (h : d.Effect cfg i d') (hendT : i ≠ .decEndT)
    (hcnt : i ≠ .decCnt0) (hillegal : i ≠ .illegal) : d'.err = d.err := by
  cases h
  case decEndTDrop | decEndTError | decCnt0 | illegal => contradiction
  all_goals rfl

/-- Settles O26: one lemma per register, each by the rows that write it. -/
theorem decoderRegisterWriters : Obligations.DecoderRegisterWriters := by
  intro i s t hi h
  obtain ⟨-, d, heff, rfl⟩ := (exec_dec_iff hi).1 h
  exact ⟨heff.total_eq, heff.cnt_eq, heff.dstate_eq, heff.phase_eq, heff.err_eq⟩

/-! ### Independence of the agents (R20) -/

/-- Settles O47: an effect is a relation on the agent's own record (and the parameters), so it is the same from every state
with that record. -/
theorem agentsReadOnlyTheirOwnRecord : Obligations.AgentsReadOnlyTheirOwnRecord := by
  constructor
  · intro i s s' t hi henc h
    obtain ⟨hphase, e, heff, rfl⟩ := (exec_enc_iff hi).1 h
    rw [← henc] at hphase heff
    exact heff.exec_next hphase
  · intro i s s' t hi hdec hcfg h
    obtain ⟨hphase, d, heff, rfl⟩ := (exec_dec_iff hi).1 h
    rw [← hdec] at hphase heff
    rw [← hcfg] at heff
    exact heff.exec_next hphase

end Sys2Proof.Machine
end

