-- ==== Sys2Proof/Proofs/Invariant.lean ====
section
/-!
PROOF. The invariant of both records and of the machine: a call just reset has it, the effect of every row keeps it, and so
does every step.
-/

namespace Sys2Proof.Machine

/-! ### A call just reset (R36) -/

theorem Enc.fresh_reset (e : Enc) : e.reset.fresh := ⟨rfl, rfl, rfl, rfl, rfl⟩

theorem Dec.fresh_reset (d : Dec) : d.reset.fresh := ⟨rfl, rfl, rfl, rfl, rfl, rfl⟩

/-- Of the record before the reset only the sink matters, the one thing reset keeps. -/
theorem Enc.inv_reset {e : Enc} (h : e.sink.wf) : e.reset.Inv where
  noPendNoRun _ := rfl
  runCapped := Nat.zero_le _
  pendIffConsumed _ := ⟨fun _ => rfl, fun _ => rfl⟩
  cursorInStream := Nat.zero_le _
  doneAtEnd h := nomatch h
  sinkWf := Sink.wf_beginCall h

/-- Of the record before the reset only the sink matters, the one thing reset keeps. -/
theorem Dec.inv_reset {d : Dec} (h : d.sink.wf) : d.reset.Inv where
  countNonzero h := nomatch h
  faultIffErr := by simp
  errIsCores := by simp
  totalIsAppended := rfl
  cursorInStream := Nat.zero_le _
  doneAtEnd h := nomatch h
  sinkWf := Sink.wf_beginCall h

theorem Params.holds_zero (cfg : Params) : cfg.holds 0 := fun w _ => Nat.two_pow_pos w

/-- With nothing consumed there is nothing emitted and nothing held. -/
theorem Enc.tracks_reset (e : Enc) : e.reset.Tracks := by
  refine ⟨rfl, Sink.output_beginCall e.sink, fun k front hsplit _ => ?_⟩
  have hk : List.replicate k e.reset.pend = [] := (List.append_eq_nil_iff.1 hsplit.symm).2
  rw [(List.replicate_eq_nil_iff _).1 hk]

/-! ### The effect of an encoder's row -/

theorem Enc.runNext_toNat {e : Enc} (h : e.run.toNat ≤ 253) : e.runNext.toNat = e.run.toNat + 1 := by
  rw [Enc.runNext]
  bv_omega

/-- A row that consumes a byte leaves a symbol pending, so a non-zero cursor is what the invariant asks for. -/
theorem Enc.inv_of_byte {x : Source} {b : Byte} {e : Enc} (htok : x.token = some (.byte b)) (hsrc : e.src = x.advance)
    (hphase : e.phase = .run) (hpv : e.pendValid = true) (hcap : e.run.toNat ≤ 254) (hsink : e.sink.wf) : e.Inv where
  noPendNoRun h := by simp [hpv] at h
  runCapped := hcap
  pendIffConsumed _ := by simp [hpv, hsrc]
  cursorInStream := by
    have := Source.token_byte_lt htok
    simp only [hsrc, Source.advance_bytes, Source.advance_ipos]
    omega
  doneAtEnd h := by simp [hphase] at h
  sinkWf := hsink

theorem Enc.inv_of_end {e : Enc} {k : Sink} (hinv : e.Inv) (htok : e.src.token = some .eoi) (hk : k.wf) :
    ({ e with sink := k, phase := .done } : Enc).Inv where
  noPendNoRun := hinv.noPendNoRun
  runCapped := hinv.runCapped
  pendIffConsumed h := nomatch h
  cursorInStream := hinv.cursorInStream
  doneAtEnd _ := Source.token_eoi.1 htok
  sinkWf := hk

theorem Enc.inv_of_emit {e : Enc} {k : Sink} (hinv : e.Inv) (hk : k.wf) : ({ e with sink := k } : Enc).Inv where
  noPendNoRun := hinv.noPendNoRun
  runCapped := hinv.runCapped
  pendIffConsumed := hinv.pendIffConsumed
  cursorInStream := hinv.cursorInStream
  doneAtEnd := hinv.doneAtEnd
  sinkWf := hk

/-- R22, R23: every row of R110's table, and the emitter, keeps the encoder's invariant. -/
theorem Enc.Effect.keeps_inv {s : State} {e : Enc} {i : Instr} (hinv : s.enc.Inv) (hphase : s.enc.phase = .run)
    (heff : s.enc.Effect i e) : e.Inv := by
  have hsink : e.sink.wf := heff.sink_eq ▸ Sink.wf_emitAll _ hinv.sinkWf
  cases heff
  case encFirst b htok _ _ => exact Enc.inv_of_byte htok rfl hphase rfl hinv.runCapped hsink
  case encStart b htok hpv _ _ => exact Enc.inv_of_byte htok rfl hphase hpv (by simp) hsink
  case encSingle b htok hpv _ _ => exact Enc.inv_of_byte htok rfl hphase hpv hinv.runCapped hsink
  case encExtend b htok hpv _ _ hrun =>
    exact Enc.inv_of_byte htok rfl hphase hpv (by rw [Enc.runNext_toNat hrun]; omega) hsink
  case encCap b htok hpv _ _ => exact Enc.inv_of_byte htok rfl hphase hpv (by simp) hsink
  case encBreak b htok hpv _ _ _ => exact Enc.inv_of_byte htok rfl hphase hpv (by simp) hsink
  case encEndRun htok _ _ _ => exact Enc.inv_of_end hinv htok hsink
  case encEndLit htok _ _ => exact Enc.inv_of_end hinv htok hsink
  case encEndEmpty htok _ _ => exact Enc.inv_of_end hinv htok hsink
  case emitLiteral => exact Enc.inv_of_emit hinv hsink
  case emitRun => exact Enc.inv_of_emit hinv hsink

/-! ### The effect of a decoder's row -/

/-- R29: `total` counts the appended bytes. -/
theorem Dec.Effect.total_eq_add_appended {s : State} {d : Dec} {i : Instr} (heff : s.dec.Effect s.cfg i d) :
    d.total = s.dec.total + (appended s i).length := by
  cases heff <;> simp [appended, Dec.copies]

theorem Dec.Effect.total_fits {cfg : Params} {d d' : Dec} {i : Instr} (hfits : cfg.holds d.total)
    (heff : d.Effect cfg i d') : cfg.holds d'.total := by
  cases heff
  case lit hfits' | run hfits' | esc1 hfits' | decLit hfits' | decVal hfits' => exact hfits'
  all_goals exact hfits

/-- R30: only bytes that are there are consumed. -/
theorem Dec.Effect.consumed_le {cfg : Params} {d d' : Dec} {i : Instr} (hcur : d.src.ipos ≤ d.src.bytes.length)
    (heff : d.Effect cfg i d') : d.src.ipos + consumed i ≤ d.src.bytes.length := by
  cases heff
  case lit | run | esc1 => exact Source.startsWith_cons_le ‹d.src.startsWith _ = true›
  case illegal _ hbytes =>
    have hle := Source.startsWith_cons_le hbytes
    exact Nat.le_of_succ_le hle
  case decLit | decEsc | decCnt | decVal => exact Source.token_byte_lt ‹d.src.token = _›
  all_goals exact hcur

/-- R37 (iii): the exception writes `phase` and `err` together, and no other row writes `err` or enters `Fault`. -/
theorem Dec.Effect.fault_iff_err {cfg : Params} {d d' : Dec} {i : Instr} (hphase : d.phase = .run) (herr : d.err = .none)
    (heff : d.Effect cfg i d') : d'.phase = .fault ↔ d'.err ≠ .none := by
  cases heff <;> simp [hphase, herr]

theorem Dec.Effect.err_ne_invalidArgument {cfg : Params} {d d' : Dec} {i : Instr} (herr : d.err ≠ .invalidArgument)
    (heff : d.Effect cfg i d') : d'.err ≠ .invalidArgument := by
  cases heff <;> simp [herr]

theorem Dec.Effect.done_at_end {cfg : Params} {d d' : Dec} {i : Instr} (hphase : d.phase = .run)
    (heff : d.Effect cfg i d') (hdone : d'.phase = .done) : d'.src.ipos = d'.src.bytes.length := by
  cases heff
  case decEndL htok _ | decEndTDrop htok _ _ => exact Source.token_eoi.1 htok
  all_goals simp [hphase] at hdone

/-- R37 (ii), R26: `DEC.CNT` enters `ReadingValue`, with a count that is not zero. -/
theorem Dec.Effect.count_nonzero {cfg : Params} {d d' : Dec} {i : Instr}
    (hcount : d.dstate = .readingValue → 1 ≤ d.cnt.toNat) (heff : d.Effect cfg i d') (hds : d'.dstate = .readingValue) :
    1 ≤ d'.cnt.toNat := by
  cases heff
  case decCnt b _ _ hb =>
    rw [Dec.afterCnt_cnt]
    bv_omega
  case run | esc1 | illegal | decEsc | decVal => nomatch hds
  all_goals exact hcount hds

/-- R26, R28, R29, R37: every row of R151's table, and every unit, keeps the decoder's invariant. -/
theorem Dec.Effect.keeps_inv {s : State} {d : Dec} {i : Instr} (hinv : s.dec.Inv) (hphase : s.dec.phase = .run)
    (heff : s.dec.Effect s.cfg i d) : d.Inv where
  countNonzero := heff.count_nonzero hinv.countNonzero
  faultIffErr := heff.fault_iff_err hphase (by simpa [hphase] using hinv.faultIffErr)
  errIsCores := heff.err_ne_invalidArgument hinv.errIsCores
  totalIsAppended := by
    have := hinv.totalIsAppended
    rw [heff.total_eq_add_appended, heff.sink_eq, Sink.emitAll_base, Sink.emitAll_olen]
    omega
  cursorInStream := by rw [heff.src_eq]; exact heff.consumed_le hinv.cursorInStream
  doneAtEnd := heff.done_at_end hphase
  sinkWf := heff.sink_eq ▸ Sink.wf_emitAll _ hinv.sinkWf

/-! ### The machine -/

theorem exec_keeps_inv {i : Instr} {s t : State} (hinv : s.Inv) (h : exec i s = .next t) : t.Inv := by
  cases hi : i.agent
  case enc =>
    obtain ⟨hphase, e, heff, rfl⟩ := exec_enc_effect hi h
    exact ⟨heff.keeps_inv hinv.enc hphase, hinv.dec, hinv.totalFits⟩
  case dec =>
    obtain ⟨hphase, d, heff, rfl⟩ := exec_dec_effect hi h
    exact ⟨hinv.enc, heff.keeps_inv hinv.dec hphase, heff.total_fits hinv.totalFits⟩

theorem State.inv_resetAgent {s : State} (a : Agent) (hinv : s.Inv) : (s.resetAgent a).Inv := by
  cases a
  case enc => exact ⟨Enc.inv_reset hinv.enc.sinkWf, hinv.dec, hinv.totalFits⟩
  case dec => exact ⟨hinv.enc, Dec.inv_reset hinv.dec.sinkWf, Params.holds_zero _⟩

theorem State.inv_provide_resetAgent {s : State} {k : Sink} (bytes : List Byte) (a : Agent) (hinv : s.Inv) (hk : k.wf) :
    ((s.provide bytes k a).resetAgent a).Inv := by
  cases a
  case enc => exact ⟨Enc.inv_reset hk, hinv.dec, hinv.totalFits⟩
  case dec => exact ⟨hinv.enc, Dec.inv_reset hk, Params.holds_zero _⟩

theorem State.Inv.sinkOf_wf {s : State} (hinv : s.Inv) (a : Agent) : (s.sinkOf a).wf := by
  cases a
  case enc => exact hinv.enc.sinkWf
  case dec => exact hinv.dec.sinkWf

theorem launchSink_wf {current k : Sink} {arg : SinkArg} (hcurrent : current.wf) (h : launchSink current arg = .ok k) :
    k.wf := by
  cases arg <;> cases h
  case kept => exact hcurrent
  case own contents => exact Sink.wf_holding contents

theorem launch_keeps_inv {s t : State} {l : Launch} (hinv : s.Inv) (h : s.launch l = .next t) : t.Inv := by
  obtain ⟨k, bytes, hk, -, rfl⟩ := State.launch_next.1 h
  exact State.inv_provide_resetAgent bytes l.agent hinv (launchSink_wf (hinv.sinkOf_wf l.agent) hk)

/-- The invariant says nothing of the host's side. -/
theorem State.Inv.of_same_records {s s' : State} (hinv : s.Inv) (henc : s'.enc = s.enc) (hdec : s'.dec = s.dec)
    (hcfg : s'.cfg = s.cfg) : s'.Inv where
  enc := henc ▸ hinv.enc
  dec := hdec ▸ hinv.dec
  totalFits := by rw [hcfg, hdec]; exact hinv.totalFits

theorem State.Inv.with_host {s : State} (hinv : s.Inv) (rest : List HostEvent) : ({ s with host := rest } : State).Inv :=
  hinv.of_same_records rfl rfl rfl

/-- Settles O43: a step is an instruction, a reset or a launch, and each of the three keeps the invariant. -/
theorem everyStepKeepsTheInvariant : Obligations.EveryStepKeepsTheInvariant := by
  intro s t hinv h
  obtain ⟨i, s', hexec, henc, hdec, hcfg, -⟩ | ⟨a, rest, -, rfl⟩ | ⟨l, rest, -, hlaunch⟩ := step_next h
  · exact exec_keeps_inv (hinv.of_same_records henc hdec hcfg) hexec
  · exact State.inv_resetAgent a (hinv.with_host rest)
  · exact launch_keeps_inv (hinv.with_host rest) hlaunch

/-! ### Reset -/

/-- Settles O35: power-on is the reset of two calls on empty sinks, and a sink's invariant puts its memory in canonical
form. -/
theorem resetStateMeetsTheInvariant : Obligations.ResetStateMeetsTheInvariant := by
  have henc : State.reset.enc.Inv := State.reset_enc ▸ Enc.inv_reset (by decide)
  have hdec : State.reset.dec.Inv := State.reset_dec ▸ Dec.inv_reset (by decide)
  exact ⟨State.reset_enc ▸ Enc.fresh_reset _, State.reset_dec ▸ Dec.fresh_reset _, rfl, rfl,
    ⟨henc, hdec, Params.holds_zero _⟩, State.reset_enc ▸ Enc.tracks_reset _,
    Sink.wf_memory henc.sinkWf, Sink.wf_memory hdec.sinkWf⟩

theorem step_of_reset_event {s : State} {a : Agent} {rest : List HostEvent} (hhost : s.host = .reset a :: rest) :
    step s = .next (({ s with host := rest } : State).resetAgent a) := by
  simp [step, hhost]

/-- Settles O36: the step is the agent's reset, and reset keeps `IN`, `OUT` and `olen`. -/
theorem resetStartsACall : Obligations.ResetStartsACall := by
  intro s rest
  constructor
  · intro hhost
    exact ⟨_, step_of_reset_event hhost, Enc.fresh_reset _, rfl, rfl, rfl, rfl, rfl, rfl⟩
  · intro hhost
    exact ⟨_, step_of_reset_event hhost, Dec.fresh_reset _, rfl, rfl, rfl, rfl, rfl, rfl⟩

end Sys2Proof.Machine
end

