-- ==== Sys2Proof/Proofs/Status.lean ====
section
/-!
PROOF. The status view: no two values of a register share a code, so a code in the view says which value the register has.
-/

namespace Sys2Proof.Machine

theorem EncPhase.code_injective : Function.Injective EncPhase.code := by
  intro p q
  cases p <;> cases q <;> decide

theorem DecPhase.code_injective : Function.Injective DecPhase.code := by
  intro p q
  cases p <;> cases q <;> decide

theorem dstateCode_injective : Function.Injective dstateCode := by
  intro p q
  cases p <;> cases q <;> decide

theorem Err.code_injective : Function.Injective Err.code := by
  intro p q
  cases p <;> cases q <;> decide

theorem Dec.result_isSome {d : Dec} : d.result.isSome = true ↔ d.phase = .done := by
  rw [Dec.result]
  cases d.phase <;> simp

/-- Settles O42: the plain fields are copies, and a code is compared with the code of the value it stands for. -/
theorem statusViewShowsTheState : Obligations.StatusViewShowsTheState := by
  refine ⟨fun e => ⟨rfl, rfl, ?pendValid, ?encRun, ?encDone⟩, fun d => ⟨rfl, rfl, ?decRun, ?decDone, ?decFault,
    ?literal, ?readingCount, ?readingValue, ?noErr, ?corruptData, ?invalidArgument, Dec.result_isSome⟩⟩
  case pendValid => cases h : e.pendValid <;> simp [Enc.status, h]
  case encRun => exact EncPhase.code_injective.eq_iff (b := .run)
  case encDone => exact EncPhase.code_injective.eq_iff (b := .done)
  case decRun => exact DecPhase.code_injective.eq_iff (b := .run)
  case decDone => exact DecPhase.code_injective.eq_iff (b := .done)
  case decFault => exact DecPhase.code_injective.eq_iff (b := .fault)
  case literal => exact dstateCode_injective.eq_iff (b := .literal)
  case readingCount => exact dstateCode_injective.eq_iff (b := .readingCount)
  case readingValue => exact dstateCode_injective.eq_iff (b := .readingValue)
  case noErr => exact Err.code_injective.eq_iff (b := .none)
  case corruptData => exact Err.code_injective.eq_iff (b := .corruptData)
  case invalidArgument => exact Err.code_injective.eq_iff (b := .invalidArgument)

end Sys2Proof.Machine
end

