-- ==== Sys2Proof/Proofs/Bounds.lean ====
section
/-!
PROOF. What appending does to a sink, and how much is ever appended: by one instruction, by an encoding, by a decoding.
-/

namespace Sys2Proof.Machine

/-- Settles O22: `Sink.read_emitAll` says what stands at every address; each clause is one side of it. -/
theorem sinkAppendsInOrder : Obligations.SinkAppendsInOrder := by
  intro k bs
  refine ⟨Sink.emitAll_olen k bs, Sink.emitAll_base k bs, fun j hj => ?_, fun a ha => ?_⟩
  · rw [Sink.read_emitAll, if_pos (by omega), Nat.add_sub_cancel_left]
  · rw [Sink.read_emitAll, if_neg (by omega)]

/-! ### One instruction (R60) -/

theorem literalBytes_length_le (s : Byte) : (literalBytes s).length ≤ 3 := by
  rw [literalBytes]
  split <;> simp

@[simp] theorem descriptorBytes_length (s n : Byte) : (descriptorBytes s n).length = 3 := rfl

theorem appended_length_le_of_enc (s : State) {i : Instr} (hi : i.agent = .enc) : (appended s i).length ≤ 3 := by
  cases i
  case encSingle | encEndLit | emitLiteral => exact literalBytes_length_le _
  case encCap | encBreak | encEndRun | emitRun => exact (descriptorBytes_length _ _).le
  case encFirst | encStart | encExtend | encEndEmpty => exact Nat.zero_le _
  all_goals nomatch hi

theorem replicate_byte_length_le (n v : Byte) : (List.replicate n.toNat v).length ≤ 255 := by
  rw [List.length_replicate]
  omega

theorem appended_length_le_of_dec (s : State) {i : Instr} (hi : i.agent = .dec) : (appended s i).length ≤ 255 := by
  cases i
  case run n v => exact replicate_byte_length_le n v
  case decVal b => exact replicate_byte_length_le s.dec.cnt b
  case lit | decLit | esc1 => exact Nat.succ_le_succ (Nat.zero_le _)
  case illegal | decEsc | decCnt | decCnt0 | decEndL | decEndT => exact Nat.zero_le _
  all_goals nomatch hi

theorem exec_enc_olen_le {i : Instr} {s t : State} (hi : i.agent = .enc) (h : exec i s = .next t) :
    t.enc.sink.olen ≤ s.enc.sink.olen + 3 := by
  obtain ⟨-, e, heff, rfl⟩ := exec_enc_effect hi h
  rw [heff.sink_eq, Sink.emitAll_olen]
  exact Nat.add_le_add_left (appended_length_le_of_enc s hi) _

theorem exec_dec_olen_le {i : Instr} {s t : State} (hi : i.agent = .dec) (h : exec i s = .next t) :
    t.dec.sink.olen ≤ s.dec.sink.olen + 255 := by
  obtain ⟨-, d, heff, rfl⟩ := exec_dec_effect hi h
  rw [heff.sink_eq, Sink.emitAll_olen]
  exact Nat.add_le_add_left (appended_length_le_of_dec s hi) _

/-! ### An encoding (R193) -/

/-- Three bytes pay for each byte still held (`run`, and one more once `pend` is valid) and for each byte still to come:
a flush appends three bytes at most, and takes at least one byte out of what is held. -/
theorem encodeLoop_length_le (pendValid : Bool) (pend : Byte) (run : Nat) (out stream : List Byte) :
    (encodeLoop pendValid pend run out stream).length ≤ out.length + 3 * (run + pendValid.toNat + stream.length) := by
  fun_induction encodeLoop
  -- the end of the stream: a run is held, or one byte, or none
  case case1 =>
    simp only [List.length_append, List.length_cons, List.length_nil]
    omega
  case case2 pend _ _ _ =>
    have hlit := literalBytes_length_le pend
    simp only [List.length_append, Bool.toNat_true]
    omega
  case case3 => omega
  -- a byte that is adopted, or counted into the run: nothing is flushed
  case case4 ih =>
    simp only [Bool.toNat_true, Bool.toNat_false, List.length_cons] at ih ⊢
    omega
  case case5 hpv _ ih | case7 hpv _ _ _ ih =>
    simp only [Bool.eq_true_of_not_eq_false hpv, Bool.toNat_true, List.length_cons] at ih ⊢
    omega
  -- a byte before which a literal is flushed
  case case6 pend _ _ _ _ hpv _ _ ih =>
    have hlit := literalBytes_length_le pend
    simp only [Bool.eq_true_of_not_eq_false hpv, Bool.toNat_true, List.length_append, List.length_cons] at ih ⊢
    omega
  -- a byte before which a full or a broken run is flushed
  case case8 hpv _ _ _ ih | case9 hpv _ _ _ _ ih =>
    simp only [Bool.eq_true_of_not_eq_false hpv, Bool.toNat_true, List.length_append, List.length_cons,
      List.length_nil] at ih ⊢
    omega

theorem encodeRef_length_le (stream : List Byte) : (encodeRef stream).length ≤ 3 * stream.length := by
  have h := encodeLoop_length_le false 0 0 [] stream
  rw [encodeRef]
  simpa using h

/-! ### A decoding (R29, R61) -/

/-- `total` counts the bytes of the output, from any accumulators that agree on it. -/
theorem decodeLoop_total_eq {policy : TruncPolicy} {ds ds' : DState} {cnt : Byte} {out out' stream : List Byte}
    {total total' i : Nat} (htotal : total = out.length)
    (h : decodeLoop policy ds cnt out total i stream = .done out' total' ds') : total' = out'.length := by
  fun_induction decodeLoop policy ds cnt out total i stream
  -- `CorruptData`, at the end or at a zero count
  case case1 | case5 => nomatch h
  -- the end of the stream
  case case2 =>
    obtain ⟨rfl, rfl, -⟩ := DecodeResult.done.inj h
    exact htotal
  -- a literal, or the value of a descriptor, is appended and counted
  case case3 ih | case7 ih => exact ih (by simp [htotal]) h
  -- the escape byte, or a count
  case case4 ih | case6 ih => exact ih htotal h

/-- How many bytes of a unit have been consumed in each interpreter state (R25). -/
def unitBytesRead : DState → Nat
  | .literal => 0
  | .readingCount => 1
  | .readingValue => 2

/-- The most that `n` bytes can decode to (R61): 255 bytes for three, one for each that is left over. -/
def maxDecoded (n : Nat) : Nat := 255 * (n / 3) + n % 3

theorem maxDecoded_lt_succ (n : Nat) : maxDecoded n < maxDecoded (n + 1) := by
  rw [maxDecoded, maxDecoded]
  omega

theorem maxDecoded_add_three (n : Nat) : maxDecoded (n + 3) = maxDecoded n + 255 := by
  rw [maxDecoded, maxDecoded]
  omega

/-- The bytes consumed of an open unit count as still to be decoded: a literal pays for one byte, a whole descriptor, at
its value byte, for 255. -/
theorem decodeLoop_length_le {policy : TruncPolicy} {ds ds' : DState} {cnt : Byte} {out out' stream : List Byte}
    {total total' i : Nat} (h : decodeLoop policy ds cnt out total i stream = .done out' total' ds') :
    out'.length ≤ out.length + maxDecoded (stream.length + unitBytesRead ds) := by
  fun_induction decodeLoop policy ds cnt out total i stream
  -- `CorruptData`, at the end or at a zero count
  case case1 | case5 => nomatch h
  -- the end of the stream
  case case2 =>
    obtain ⟨rfl, -, -⟩ := DecodeResult.done.inj h
    exact Nat.le_add_right _ _
  -- a literal
  case case3 rest _ ih =>
    have hout := ih h
    have hpay := maxDecoded_lt_succ rest.length
    simp only [unitBytesRead, List.length_append, List.length_cons, List.length_nil, Nat.add_zero] at hout ⊢
    omega
  -- the escape byte, or a count
  case case4 ih | case6 ih => exact ih h
  -- the value of a descriptor
  case case7 cnt out _ _ v rest ih =>
    have hout := ih h
    have hcopies := replicate_byte_length_le cnt v
    have hpay : maxDecoded (rest.length + 1 + 2) = maxDecoded rest.length + 255 := maxDecoded_add_three rest.length
    simp only [unitBytesRead, List.length_append, List.length_cons, Nat.add_zero] at hout ⊢
    omega

theorem decodeRef_length_le {policy : TruncPolicy} {ds : DState} {out stream : List Byte} {total : Nat}
    (h : decodeRef policy stream = .done out total ds) : out.length ≤ maxDecoded stream.length := by
  simpa [unitBytesRead] using decodeLoop_length_le h

/-- Settles O57: the bounds on an instruction, on an encoding and on a decoding. -/
theorem outputIsBounded : Obligations.OutputIsBounded :=
  ⟨fun _ _ _ h => ⟨fun hi => exec_enc_olen_le hi h, fun hi => exec_dec_olen_le hi h⟩, encodeRef_length_le,
    fun _ _ _ _ _ h => ⟨decodeLoop_total_eq rfl h, decodeRef_length_le h⟩⟩

end Sys2Proof.Machine
end

