-- ==== Sys2Proof/Proofs/Encoding.lean ====
section
/-!
PROOF. The rows and their bytes: the unit decoder's cases and what it reads back of an encoded unit, the step rows and
their tokens, words written out in bits, and the illegal unit at the machine's cursor.
-/

namespace Sys2Proof.Machine

/-! ### The unit decoder, by the alternatives of R84 to R87 -/

theorem decodeUnit_literal {b : Byte} (hb : b ≠ Config.esc) (rest : List Byte) :
    decodeUnit (b :: rest) = .ok (.lit b, rest) := by
  simp [decodeUnit, hb]

theorem decodeUnit_zero_count (rest : List Byte) : decodeUnit (Config.esc :: 0 :: rest) = .ok (.illegal, rest) := rfl

theorem decodeUnit_descriptor {n : Byte} (hn : n ≠ 0) (v : Byte) (rest : List Byte) :
    decodeUnit (Config.esc :: n :: v :: rest) = .ok (unitName (.run n v), rest) := by
  rw [decodeUnit, if_neg (not_not.2 rfl), unitName]
  refine (if_neg hn).trans ?_
  split <;> rfl

theorem decodeUnit_truncated_count {n : Byte} (hn : n ≠ 0) :
    decodeUnit [Config.esc, n] = .error .truncatedAfterCount := by
  rw [decodeUnit, if_neg (not_not.2 rfl)]
  exact if_neg hn

/-! ### The operands a unit allows (R81, R82) -/

@[simp] theorem Instr.wellFormed_lit {b : Byte} : (Instr.lit b).wellFormed = true ↔ b ≠ Config.esc := bne_iff_ne

@[simp] theorem Instr.wellFormed_run {n v : Byte} : (Instr.run n v).wellFormed = true ↔ n ≠ 0 := bne_iff_ne

/-! ### What `unitName` keeps: both names of `00 01 00` are the same row of the wire (R92) -/

@[simp] theorem encode_unitName_run (n v : Byte) : encode (unitName (.run n v)) = encode (.run n v) := by
  rw [unitName]
  split
  case isTrue h => rw [h.1, h.2]; rfl
  case isFalse => rfl

@[simp] theorem unitName_run_group (n v : Byte) : (unitName (.run n v)).group = .wireUnit := by
  rw [unitName]
  split <;> rfl

theorem unitName_run_wellFormed {n : Byte} (hn : n ≠ 0) (v : Byte) : (unitName (.run n v)).wellFormed = true := by
  rw [unitName]
  split
  case isTrue => rfl
  case isFalse => exact Instr.wellFormed_run.2 hn

/-! ### Reading back what was encoded -/

theorem decodeUnit_encode {i : Instr} (hunit : i.group = .wireUnit) (hwf : i.wellFormed = true) (rest : List Byte) :
    decodeUnit (encode i ++ rest) = .ok (unitName i, rest) := by
  cases i
  case lit b => exact decodeUnit_literal (Instr.wellFormed_lit.1 hwf) rest
  case run n v => exact decodeUnit_descriptor (Instr.wellFormed_run.1 hwf) v rest
  case esc1 => exact decodeUnit_descriptor (n := 1) (by decide) Config.esc rest
  case illegal => exact decodeUnit_zero_count rest
  all_goals nomatch hunit

/-- `EmitLiteral` writes the bytes of a unit: `ESC1` for the escape symbol, `LIT` for any other (R141, R143). -/
theorem encode_emitLiteral (x : Byte) : encode (.emitLiteral x) = encode (if x = 0x00 then .esc1 else .lit x) := by
  rw [encode, ite_not, apply_ite encode]
  rfl

/-- Settles O32: one case per wire unit; the emitter's bytes are those of the unit it writes. -/
theorem unitsDecodeAsEncoded : Obligations.UnitsDecodeAsEncoded := by
  refine ⟨fun i rest hunit hwf => decodeUnit_encode hunit hwf rest, fun n v => rfl, fun x n rest hn => ?emitRun,
    fun x rest => ?emitLiteral⟩
  case emitRun =>
    have hn0 : n ≠ 0 := by rintro rfl; nomatch hn
    have hname : unitName (.run n x) = .run n x := if_neg fun ⟨hn1, _⟩ => by subst hn1; revert hn; decide
    exact hname ▸ decodeUnit_descriptor hn0 x rest
  case emitLiteral =>
    rw [encode_emitLiteral]
    split
    case isTrue => exact decodeUnit_encode (i := .esc1) rfl rfl rest
    case isFalse hx => exact decodeUnit_literal hx rest

/-! ### What the unit decoder reads was encoded -/

theorem decodeUnit_sound {bs rest : List Byte} {i : Instr} (h : decodeUnit bs = .ok (i, rest)) :
    bs = encode i ++ rest ∧ i.group = .wireUnit ∧ i.wellFormed = true := by
  revert h
  fun_cases decodeUnit bs <;> rintro ⟨⟩
  case case2 b hb => exact ⟨rfl, rfl, Instr.wellFormed_lit.2 hb⟩
  case case4 b hb =>
    obtain rfl := not_not.1 hb
    exact ⟨rfl, rfl, rfl⟩
  case case6 b hb n v hn hesc =>
    obtain rfl := not_not.1 hb
    obtain ⟨rfl, rfl⟩ := hesc
    exact ⟨rfl, rfl, rfl⟩
  case case7 b hb n hn v hesc =>
    obtain rfl := not_not.1 hb
    exact ⟨rfl, rfl, Instr.wellFormed_run.2 hn⟩

theorem decodeUnit_reads_none_iff {bs : List Byte} :
    (∀ i rest, decodeUnit bs ≠ .ok (i, rest)) ↔
      bs = [] ∨ bs = [0x00] ∨ ∃ n : Byte, n ≠ 0x00 ∧ bs = [0x00, n] := by
  constructor
  · fun_cases decodeUnit bs <;> intro hnone
    case case1 => exact .inl rfl
    case case3 b hb =>
      obtain rfl := not_not.1 hb
      exact .inr (.inl rfl)
    case case5 b hb n hn =>
      obtain rfl := not_not.1 hb
      exact .inr (.inr ⟨n, hn, rfl⟩)
    case case2 | case4 | case6 | case7 => exact absurd rfl (hnone _ _)
  · rintro (rfl | rfl | ⟨n, hn, rfl⟩) i rest h
    · nomatch h
    · nomatch h
    · nomatch (decodeUnit_truncated_count hn).symm.trans h

/-- Settles O33: both clauses by the branches of the unit decoder. -/
theorem unitDecodingIsSound : Obligations.UnitDecodingIsSound :=
  ⟨fun _ _ _ => decodeUnit_sound, fun _ => decodeUnit_reads_none_iff⟩

/-! ### Step rows and their tokens (R94, R110, R151) -/

theorem decodeDecStep_reads_token (ds : DState) (tok : Token) :
    (decodeDecStep ds tok).token = some tok ∧ (decodeDecStep ds tok).group = .decStep ∧
      (decodeDecStep ds tok).wellFormed = true ∧ encode (decodeDecStep ds tok) = tok.bytes := by
  fun_cases decodeDecStep ds tok
  -- `DEC.LIT` and `DEC.CNT`, on a byte that is not zero
  case case1 b hb | case3 b hb => exact ⟨rfl, rfl, bne_iff_ne.2 hb, rfl⟩
  -- `DEC.ESC` and `DEC.CNT0`, on the zero byte
  case case2 b hb | case4 b hb =>
    obtain rfl := not_not.1 hb
    exact ⟨rfl, rfl, rfl, rfl⟩
  case case5 | case6 | case7 | case8 => exact ⟨rfl, rfl, rfl, rfl⟩

theorem decodeEncStep_reads_token {pv : Bool} {pend run : Byte} {tok : Token} {i : Instr}
    (h : decodeEncStep pv pend run tok = .ok i) : i.token = some tok ∧ i.group = .encStep ∧ encode i = tok.bytes := by
  revert h
  -- an answer is one of the nine rows; the pairs outside the table answer an error
  fun_cases decodeEncStep pv pend run tok <;> rintro ⟨⟩ <;> exact ⟨rfl, rfl, rfl⟩

theorem decodeDecStep_surjective {i : Instr} (hstep : i.group = .decStep) (hwf : i.wellFormed = true) :
    ∃ ds tok, decodeDecStep ds tok = i := by
  cases i
  case decLit b => exact ⟨.literal, .byte b, if_pos (bne_iff_ne.1 hwf)⟩
  case decEsc => exact ⟨.literal, .byte Config.esc, rfl⟩
  case decCnt b => exact ⟨.readingCount, .byte b, if_pos (bne_iff_ne.1 hwf)⟩
  case decCnt0 => exact ⟨.readingCount, .byte 0, rfl⟩
  case decVal b => exact ⟨.readingValue, .byte b, rfl⟩
  case decEndL => exact ⟨.literal, .eoi, rfl⟩
  case decEndT => exact ⟨.readingCount, .eoi, rfl⟩
  all_goals nomatch hstep

theorem decodeEncStep_surjective {i : Instr} (hstep : i.group = .encStep) :
    ∃ pv pend run tok, decodeEncStep pv pend run tok = .ok i := by
  have hne (b : Byte) : b ≠ ~~~b := by bv_omega
  cases i
  case encFirst b => exact ⟨false, 0, 0, .byte b, rfl⟩
  case encStart b => exact ⟨true, b, 0, .byte b, if_pos rfl⟩
  case encSingle b => exact ⟨true, ~~~b, 0, .byte b, if_neg (hne b)⟩
  case encExtend b => exact ⟨true, b, 1, .byte b, if_pos rfl⟩
  case encCap b => exact ⟨true, b, Config.runCap, .byte b, if_pos rfl⟩
  case encBreak b => exact ⟨true, ~~~b, 1, .byte b, if_neg (hne b)⟩
  case encEndRun => exact ⟨true, 0, 1, .eoi, rfl⟩
  case encEndLit => exact ⟨true, 0, 0, .eoi, rfl⟩
  case encEndEmpty => exact ⟨false, 0, 0, .eoi, rfl⟩
  all_goals nomatch hstep

/-- Settles O34: what a row reads, and a state that selects it, for the decoder's table and for the encoder's. -/
theorem stepRowsReadTheirTokens : Obligations.StepRowsReadTheirTokens :=
  ⟨decodeDecStep_reads_token, fun _ _ _ _ _ => decodeEncStep_reads_token, fun _ => decodeDecStep_surjective,
    fun _ => decodeEncStep_surjective⟩

/-- Settles O31: each word is a closed term that evaluates to its instruction. -/
theorem wordsDecodeToTheirInstructions : Obligations.WordsDecodeToTheirInstructions :=
  ⟨rfl, rfl, rfl, rfl, rfl, rfl, rfl, rfl, rfl⟩

/-! ### The illegal unit at the cursor (R86) -/

theorem Source.startsWith_of_bytes_eq {x : Source} {front bs rest : List Byte} (hpos : x.ipos = front.length)
    (hbytes : x.bytes = front ++ (bs ++ rest)) : x.startsWith bs = true := by
  simp [Source.startsWith, hpos, hbytes]

/-- Settles O20: the bytes at the cursor select the unit's effect, `DEC.ESC` and then the exception. -/
theorem illegalUnitFaultsAtTheCount : Obligations.IllegalUnitFaultsAtTheCount := by
  intro s front rest hphase hds hpos hbytes
  exact (Dec.Effect.illegal hds (Source.startsWith_of_bytes_eq hpos hbytes)).exec_next hphase

end Sys2Proof.Machine
end

