-- ==== Sys2Proof/Proofs/StreamClasses.lean ====
section
/-!
PROOF. What the parse of R85 says of a stream, and what the decoder makes of it: `classify_describes` cuts a stream into its
units and what stopped the parse; `decodeLoop_streamUnits` decodes the units, whatever follows them, so each class is left
with its last bytes alone.
-/

namespace Sys2Proof.Machine

/-! ### The units a stream is made of -/

/-- The units of a well-formed stream (R85): every wire unit but `00 00`. -/
def IsStreamUnit (u : Instr) : Prop := u.group = .wireUnit ∧ u.wellFormed = true ∧ u ≠ .illegal

theorem isStreamUnit_lit {b : Byte} (hb : b ≠ Config.esc) : IsStreamUnit (.lit b) :=
  ⟨rfl, Instr.wellFormed_lit.2 hb, nofun⟩

theorem isStreamUnit_unitName_run {n : Byte} (hn : n ≠ 0) (v : Byte) : IsStreamUnit (unitName (.run n v)) := by
  refine ⟨unitName_run_group n v, unitName_run_wellFormed hn v, ?_⟩
  rw [unitName]
  split <;> nofun

/-! ### What a class says of the bytes -/

/-- R87: a descriptor without its value byte, or without its count too. -/
def IsTruncatedUnit (tail : List Byte) : Prop := tail = [Config.esc] ∨ ∃ n : Byte, n ≠ 0 ∧ tail = [Config.esc, n]

/-- The stream is its class's units, then what the class says stopped the parse (R85, R86, R87). -/
def StreamClass.Describes (stream : List Byte) : StreamClass → Prop
  | .wellFormed us => (∀ u ∈ us, IsStreamUnit u) ∧ stream = us.flatMap encode
  | .corrupt i => ∃ (us : List Instr) (rest : List Byte), (∀ u ∈ us, IsStreamUnit u) ∧
      stream = us.flatMap encode ++ Config.esc :: 0 :: rest ∧ i = (us.flatMap encode).length + 1
  | .truncated us => (∀ u ∈ us, IsStreamUnit u) ∧ ∃ tail, IsTruncatedUnit tail ∧ stream = us.flatMap encode ++ tail

theorem StreamClass.Describes.cons {u : Instr} {rest : List Byte} {c : StreamClass} (hu : IsStreamUnit u)
    (h : c.Describes rest) : (c.cons u (encode u).length).Describes (encode u ++ rest) := by
  cases c
  case wellFormed us =>
    obtain ⟨hus, rfl⟩ := h
    exact ⟨List.forall_mem_cons.2 ⟨hu, hus⟩, rfl⟩
  case corrupt i =>
    obtain ⟨us, more, hus, rfl, rfl⟩ := h
    refine ⟨u :: us, more, List.forall_mem_cons.2 ⟨hu, hus⟩, (List.append_assoc ..).symm, ?_⟩
    rw [List.flatMap_cons, List.length_append]
    omega
  case truncated us =>
    obtain ⟨hus, tail, htail, rfl⟩ := h
    exact ⟨List.forall_mem_cons.2 ⟨hu, hus⟩, tail, htail, (List.append_assoc ..).symm⟩

theorem classify_describes (stream : List Byte) : (classify stream).Describes stream := by
  fun_induction classify stream
  case case1 => exact ⟨nofun, rfl⟩
  case case2 b rest hb ih => exact ih.cons (isStreamUnit_lit hb)
  case case3 b hb =>
    obtain rfl := not_not.1 hb
    exact ⟨nofun, _, .inl rfl, rfl⟩
  case case4 b hb rest =>
    obtain rfl := not_not.1 hb
    exact ⟨[], rest, nofun, rfl, rfl⟩
  case case5 b hb n hn =>
    obtain rfl := not_not.1 hb
    exact ⟨nofun, _, .inr ⟨n, hn, rfl⟩, rfl⟩
  case case6 b hb n hn v rest ih =>
    obtain rfl := not_not.1 hb
    have h := ih.cons (isStreamUnit_unitName_run hn v)
    rwa [encode_unitName_run] at h

/-! ### Decoding units -/

/-- `cnt` is written before it is read (R155, R158), so at a unit boundary its value makes no difference. -/
theorem decodeLoop_literal_cnt (policy : TruncPolicy) (cnt cnt' : Byte) (out : List Byte) (total i : Nat)
    (stream : List Byte) :
    decodeLoop policy .literal cnt out total i stream = decodeLoop policy .literal cnt' out total i stream := by
  induction stream generalizing out total i with
  | nil => rfl
  | cons b rest ih =>
    -- a literal leaves `cnt` to the rest of the stream; after the escape byte the next byte overwrites it
    rw [decodeLoop, decodeLoop, ih]
    congr 1
    cases rest <;> rfl

theorem decodeLoop_descriptor {n : Byte} (hn : n ≠ 0) (policy : TruncPolicy) (cnt v : Byte) (out : List Byte)
    (total i : Nat) (rest : List Byte) :
    decodeLoop policy .literal cnt out total i (Config.esc :: n :: v :: rest) =
      decodeLoop policy .literal cnt (out ++ List.replicate n.toNat v) (total + n.toNat) (i + 3) rest :=
  (if_neg hn).trans (decodeLoop_literal_cnt ..)

theorem decodeLoop_streamUnit {u : Instr} (hu : IsStreamUnit u) (policy : TruncPolicy) (cnt : Byte) (out : List Byte)
    (total i : Nat) (rest : List Byte) :
    decodeLoop policy .literal cnt out total i (encode u ++ rest) =
      decodeLoop policy .literal cnt (out ++ unitMeaning u) (total + (unitMeaning u).length) (i + (encode u).length)
        rest := by
  obtain ⟨hunit, hwf, hlegal⟩ := hu
  cases u
  case lit b => exact if_pos (Instr.wellFormed_lit.1 hwf)
  case run n v =>
    rw [unitMeaning, List.length_replicate]
    exact decodeLoop_descriptor (Instr.wellFormed_run.1 hwf) ..
  case esc1 => exact decodeLoop_descriptor (n := 1) (by decide) ..
  case illegal => exact absurd rfl hlegal
  all_goals nomatch hunit

theorem decodeLoop_streamUnits {us : List Instr} (hus : ∀ u ∈ us, IsStreamUnit u) (policy : TruncPolicy) (cnt : Byte)
    (out : List Byte) (total i : Nat) (rest : List Byte) :
    decodeLoop policy .literal cnt out total i (us.flatMap encode ++ rest) =
      decodeLoop policy .literal cnt (out ++ us.flatMap unitMeaning) (total + (us.flatMap unitMeaning).length)
        (i + (us.flatMap encode).length) rest := by
  induction us generalizing out total i with
  | nil => simp
  | cons u us ih =>
    obtain ⟨hu, hus⟩ := List.forall_mem_cons.1 hus
    rw [List.flatMap_cons, List.append_assoc, decodeLoop_streamUnit hu, ih hus]
    simp only [List.flatMap_cons, List.length_append, List.append_assoc, Nat.add_assoc]

theorem decodeRef_streamUnits {us : List Instr} (hus : ∀ u ∈ us, IsStreamUnit u) (policy : TruncPolicy)
    (rest : List Byte) :
    decodeRef policy (us.flatMap encode ++ rest) =
      decodeLoop policy .literal 0 (us.flatMap unitMeaning) (us.flatMap unitMeaning).length (us.flatMap encode).length
        rest := by
  rw [decodeRef, decodeLoop_streamUnits hus, List.nil_append, Nat.zero_add, Nat.zero_add]

/-! ### Decoding what stopped the parse -/

theorem decodeLoop_truncatedUnit_drop {tail : List Byte} (htail : IsTruncatedUnit tail) (out : List Byte)
    (total i : Nat) :
    ∃ ds, ds ≠ .literal ∧ decodeLoop .drop .literal 0 out total i tail = .done out total ds := by
  obtain rfl | ⟨n, hn, rfl⟩ := htail
  · exact ⟨.readingCount, nofun, rfl⟩
  · exact ⟨.readingValue, nofun, if_neg hn⟩

theorem decodeLoop_truncatedUnit_error {tail : List Byte} (htail : IsTruncatedUnit tail) (out : List Byte)
    (total i : Nat) : decodeLoop .error .literal 0 out total i tail = .corrupt (i + tail.length) := by
  obtain rfl | ⟨n, hn, rfl⟩ := htail
  · rfl
  · exact if_neg hn

/-- Settles O58: the units are decoded, and what the class says follows them decides the rest. -/
theorem streamsDecodeByTheirClass : Obligations.StreamsDecodeByTheirClass := by
  intro stream
  have hdesc := classify_describes stream
  refine ⟨fun us hclass => ?wellFormed, fun i hclass policy => ?corrupt, fun us hclass => ?truncated⟩
  case wellFormed =>
    rw [hclass] at hdesc
    obtain ⟨hus, rfl⟩ := hdesc
    exact ⟨rfl, fun policy => by simpa [decodeLoop] using decodeRef_streamUnits hus policy []⟩
  case corrupt =>
    rw [hclass] at hdesc
    obtain ⟨us, rest, hus, rfl, rfl⟩ := hdesc
    exact decodeRef_streamUnits hus policy _
  case truncated =>
    rw [hclass] at hdesc
    obtain ⟨hus, tail, htail, rfl⟩ := hdesc
    rw [decodeRef_streamUnits hus, decodeRef_streamUnits hus, List.length_append]
    exact ⟨decodeLoop_truncatedUnit_drop htail .., decodeLoop_truncatedUnit_error htail ..⟩

end Sys2Proof.Machine
end

