-- ==== Sys2Proof/Proofs/EncoderSteps.lean ====
section
/-!
PROOF. The encoder's rows one by one (R111 to R119), and the table as a whole (R110): a row has an effect exactly where the
table selects it, and in the states of the invariant the table selects one.
-/

namespace Sys2Proof.Machine

/-! ### The rows (R111 to R119) -/

theorem Enc.countByte_toNat {e : Enc} (h : e.run.toNat ≤ 254) : e.countByte.toNat = e.run.toNat + 1 := by
  rw [Enc.countByte]
  bv_omega

/-- Settles O1: the effect of the row, which the premises select. -/
theorem encFirstAdoptsTheByte : Obligations.EncFirstAdoptsTheByte := by
  intro s b hphase htok hpv hrun
  exact (Enc.Effect.encFirst b htok hpv hrun).exec_next hphase

/-- Settles O2: the effect of the row, which the premises select. -/
theorem encStartBeginsARun : Obligations.EncStartBeginsARun := by
  intro s b hphase htok hpv hb hrun
  exact (Enc.Effect.encStart b htok hpv hb hrun).exec_next hphase

/-- Settles O3: the effect of the row; `literalBytes_eq` writes out the literal. -/
theorem encSingleEmitsTheLiteral : Obligations.EncSingleEmitsTheLiteral := by
  intro s b hphase htok hpv hb hrun
  rw [← literalBytes_eq]
  exact (Enc.Effect.encSingle b htok hpv hb hrun).exec_next hphase

/-- Settles O4: the effect of the row; `run + 1` does not wrap at 253 or below. -/
theorem encExtendCountsOneMore : Obligations.EncExtendCountsOneMore := by
  intro s b hphase htok hpv hb hrun hrun'
  exact ⟨s.enc.runNext, Enc.runNext_toNat hrun', (Enc.Effect.encExtend b htok hpv hb hrun hrun').exec_next hphase⟩

/-- Settles O5: the effect of the row, which the premises select. -/
theorem encCapFlushesAFullRun : Obligations.EncCapFlushesAFullRun := by
  intro s b hphase htok hpv hb hrun
  exact (Enc.Effect.encCap b htok hpv hb hrun).exec_next hphase

/-- Settles O6: the effect of the row; the count byte does not wrap at 254 or below. -/
theorem encBreakFlushesTheRun : Obligations.EncBreakFlushesTheRun := by
  intro s b hphase htok hpv hb hrun hrun'
  exact ⟨s.enc.countByte, Enc.countByte_toNat hrun', (Enc.Effect.encBreak b htok hpv hb hrun hrun').exec_next hphase⟩

/-- Settles O7: the effect of the row; the count byte does not wrap at 254 or below. -/
theorem encEndRunFlushesAndEnds : Obligations.EncEndRunFlushesAndEnds := by
  intro s hphase htok hpv hrun hrun'
  exact ⟨s.enc.countByte, Enc.countByte_toNat hrun', (Enc.Effect.encEndRun htok hpv hrun hrun').exec_next hphase⟩

/-- Settles O8: the effect of the row; `literalBytes_eq` writes out the literal. -/
theorem encEndLitEmitsAndEnds : Obligations.EncEndLitEmitsAndEnds := by
  intro s hphase htok hpv hrun
  rw [← literalBytes_eq]
  exact (Enc.Effect.encEndLit htok hpv hrun).exec_next hphase

/-- Settles O9: the effect of the row, which the premises select. -/
theorem encEndEmptyOnlyEnds : Obligations.EncEndEmptyOnlyEnds := by
  intro s hphase htok hpv hrun
  exact (Enc.Effect.encEndEmpty htok hpv hrun).exec_next hphase

/-! ### The table (R110) -/

/-- A row that has an effect is the one the table selects. -/
theorem Enc.Effect.selected {e e' : Enc} {i : Instr} (heff : e.Effect i e') (hstep : i.group = .encStep) :
    ∃ tok, e.src.token = some tok ∧ decodeEncStep e.pendValid e.pend e.run tok = .ok i := by
  cases heff
  case emitLiteral | emitRun => nomatch hstep
  case encExtend htok hpv hb hrun hrun' | encBreak htok hpv hb hrun hrun' =>
    exact ⟨_, htok, by simp [decodeEncStep, hpv, hb, hrun', Nat.ne_of_gt hrun]⟩
  case encEndRun htok hpv hrun hrun' =>
    exact ⟨_, htok, by simp [decodeEncStep, hpv, hrun', Nat.ne_of_gt hrun]⟩
  -- `run` is 0, or (`ENC.CAP`) `RUN_CAP`
  all_goals exact ⟨_, ‹e.src.token = _›, by simp [decodeEncStep, Config.runCap, *]⟩

/-- The row the table selects has an effect. -/
theorem Enc.effect_of_selected {e : Enc} {tok : Token} {i : Instr} (htok : e.src.token = some tok)
    (hrow : decodeEncStep e.pendValid e.pend e.run tok = .ok i) : ∃ e', e.Effect i e' := by
  obtain ⟨phase, pv, pend, run, src, sink⟩ := e
  dsimp only at htok hrow
  have zero (h : run.toNat = 0) : run = 0 := BitVec.eq_of_toNat_eq h
  revert hrow
  -- an answer is one of the nine rows; the pairs outside the table answer an error
  fun_cases decodeEncStep pv pend run tok <;> rintro ⟨⟩
  case case1 hpv hrun => exact ⟨_, .encStart _ htok hpv rfl (zero hrun)⟩
  case case2 hpv hrun hrun' => exact ⟨_, .encExtend _ htok hpv rfl (Nat.pos_of_ne_zero hrun) hrun'⟩
  case case3 hpv _ _ hrun => exact ⟨_, .encCap _ htok hpv rfl (BitVec.eq_of_toNat_eq hrun)⟩
  case case5 hpv hb hrun => exact ⟨_, .encSingle _ htok hpv hb (zero hrun)⟩
  case case6 hpv hb hrun hrun' => exact ⟨_, .encBreak _ htok hpv hb (Nat.pos_of_ne_zero hrun) hrun'⟩
  case case8 hpv hrun => exact ⟨_, .encFirst _ htok (Bool.eq_false_of_not_eq_true hpv) (zero hrun)⟩
  case case10 hpv hrun => exact ⟨_, .encEndLit htok hpv (zero hrun)⟩
  case case11 hpv hrun hrun' => exact ⟨_, .encEndRun htok hpv (Nat.pos_of_ne_zero hrun) hrun'⟩
  case case13 hpv hrun => exact ⟨_, .encEndEmpty htok (Bool.eq_false_of_not_eq_true hpv) (zero hrun)⟩

theorem decodeEncStep_total {pv : Bool} {run : Byte} (hnone : pv = false → run = 0) (hcap : run.toNat ≤ 254)
    (pend : Byte) (tok : Token) : ∃ i, decodeEncStep pv pend run tok = .ok i := by
  fun_cases decodeEncStep pv pend run tok
  -- the pairs outside the table: `run` above 254, or a run with no symbol pending
  case case4 | case7 | case12 => omega
  case case9 hpv hrun | case14 hpv hrun =>
    rw [hnone (Bool.eq_false_of_not_eq_true hpv)] at hrun
    exact absurd rfl hrun
  all_goals exact ⟨_, rfl⟩

/-- In a live call of the invariant there is a token, the table selects a row for it, and the row has an effect. -/
theorem Enc.Inv.has_effect {e : Enc} (hinv : e.Inv) : ∃ tok i e', e.src.token = some tok ∧
    decodeEncStep e.pendValid e.pend e.run tok = .ok i ∧ e.Effect i e' := by
  obtain ⟨tok, htok⟩ := Source.token_exists hinv.cursorInStream
  obtain ⟨i, hrow⟩ := decodeEncStep_total hinv.noPendNoRun hinv.runCapped e.pend tok
  obtain ⟨e', heff⟩ := Enc.effect_of_selected htok hrow
  exact ⟨tok, i, e', htok, hrow, heff⟩

/-- Settles O28: the table selects a row, that row has an effect, and any row with an effect is the one selected. -/
theorem exactlyOneEncoderStep : Obligations.ExactlyOneEncoderStep := by
  intro s hinv hphase
  obtain ⟨tok, i, e, htok, hrow, heff⟩ := hinv.has_effect
  obtain ⟨-, hgroup, -⟩ := decodeEncStep_reads_token hrow
  refine ⟨i, tok, htok, hrow, hgroup, ⟨_, heff.exec_next hphase⟩, fun j t hj hexec => ?_⟩
  have hagent : j.agent = .enc := by rw [Instr.agent, hj]
  obtain ⟨-, e', heff', -⟩ := exec_enc_effect hagent hexec
  obtain ⟨tok', htok', hrow'⟩ := heff'.selected hj
  obtain rfl : tok' = tok := Option.some.inj (htok'.symm.trans htok)
  exact Except.ok.inj (hrow'.symm.trans hrow)

/-- Settles O46: the offered token selects a row with an effect, and an effect is on the encoder's record alone. -/
theorem theEncoderNeverFails : Obligations.TheEncoderNeverFails := by
  intro s rest hinv hphase hhost
  obtain ⟨tok, i, e, htok, hrow, heff⟩ := hinv.has_effect
  have hstep := step_of_token_event (a := .enc) hhost (Enc.nextStep_of_token hphase htok hrow)
  exact ⟨_, hstep.trans (heff.exec_next hphase), rfl⟩

end Sys2Proof.Machine
end

