-- ==== Sys2Proof/Proofs/ClosedForm.lean ====
section
/-!
PROOF. The closed form of the encoding (R188) as a stream grows at its end: it is taken apart at the border of two maximal
runs, and within a run it may be cut at any full descriptor.
-/

namespace Sys2Proof.Machine

/-! ### The maximal runs -/

theorem maximalRuns_cons (b : Byte) (rest : List Byte) : ∃ n more, maximalRuns (b :: rest) = (b, n) :: more := by
  rw [maximalRuns]
  split
  · exact ⟨_, _, rfl⟩
  · split
    · exact ⟨_, _, by rw [‹b = _›]⟩
    · exact ⟨_, _, rfl⟩

theorem maximalRuns_cons_same {b : Byte} {n : Nat} {rest : List Byte} {more : List (Byte × Nat)}
    (h : maximalRuns rest = (b, n) :: more) : maximalRuns (b :: rest) = (b, n + 1) :: more := by
  simp [maximalRuns, h]

theorem maximalRuns_cons_of_head_ne {b : Byte} {rest : List Byte} (h : rest.head? ≠ some b) :
    maximalRuns (b :: rest) = (b, 1) :: maximalRuns rest := by
  cases rest with
  | nil => rfl
  | cons c rest =>
    obtain ⟨n, more, hruns⟩ := maximalRuns_cons c rest
    have hne : b ≠ c := fun e => h (congrArg some e.symm)
    rw [maximalRuns, hruns]
    exact if_neg hne

theorem maximalRuns_replicate (v : Byte) (n : Nat) : maximalRuns (List.replicate (n + 1) v) = [(v, n + 1)] := by
  induction n with
  | zero => rfl
  | succ n ih => exact maximalRuns_cons_same ih

/-- No maximal run goes over a border of two different bytes. -/
theorem maximalRuns_append {xs ys : List Byte} (h : ∀ v, xs.getLast? = some v → ys.head? ≠ some v) :
    maximalRuns (xs ++ ys) = maximalRuns xs ++ maximalRuns ys := by
  induction xs with
  | nil => rfl
  | cons b xs ih =>
    cases xs with
    | nil => exact maximalRuns_cons_of_head_ne (h b rfl)
    | cons c xs =>
      have hrest := ih fun v hv => h v (by simpa using hv)
      by_cases hbc : b = c
      · subst hbc
        obtain ⟨n, more, hruns⟩ := maximalRuns_cons b xs
        rw [hruns] at hrest
        rw [List.cons_append, maximalRuns_cons_same hrest, maximalRuns_cons_same hruns]
        rfl
      · have hhead (zs : List Byte) : (c :: zs).head? ≠ some b := fun e => hbc (Option.some.inj e).symm
        rw [maximalRuns_cons_of_head_ne (hhead xs)]
        exact (maximalRuns_cons_of_head_ne (hhead (xs ++ ys))).trans (congrArg ((b, 1) :: ·) hrest)

/-! ### The chunks -/

theorem chunk_one (v : Byte) : chunk v 1 = literalBytes v := rfl

/-- A run of 2 to 255 bytes is one descriptor. -/
theorem chunk_descriptor {n : Byte} (v : Byte) (hn : 2 ≤ n.toNat) : chunk v n.toNat = descriptorBytes v n := by
  by_cases hfull : n = 255
  · subst hfull
    rfl
  · have hlt : n.toNat < 255 := by bv_omega
    rw [chunk, Nat.div_eq_of_lt hlt, Nat.mod_eq_of_lt hlt, tailBytes, if_neg (by omega), if_neg (by omega),
      BitVec.ofNat_toNat, BitVec.setWidth_eq]
    rfl

/-- A chunk may be cut after any of its full descriptors. -/
theorem chunk_add {k : Nat} (v : Byte) (hk : k % 255 = 0) (n : Nat) : chunk v (k + n) = chunk v k ++ chunk v n := by
  have hdiv : (k + n) / 255 = k / 255 + n / 255 := by omega
  have hmod : (k + n) % 255 = n % 255 := by omega
  have htail : tailBytes v 0 = [] := rfl
  rw [chunk, chunk, chunk, hdiv, hmod, hk, htail, List.replicate_add, List.flatten_append, List.append_nil,
    List.append_assoc]

/-! ### The closed form -/

theorem encodeClosed_append_run {front : List Byte} {v : Byte} (h : front.getLast? ≠ some v) (n : Nat) :
    encodeClosed (front ++ List.replicate n v) = encodeClosed front ++ chunk v n := by
  cases n with
  | zero => simp [chunk, tailBytes]
  | succ n =>
    have hborder : ∀ w, front.getLast? = some w → (List.replicate (n + 1) v).head? ≠ some w := by
      rintro w hw ⟨⟩
      exact h hw
    simp [encodeClosed, maximalRuns_append hborder, maximalRuns_replicate]

theorem exists_trailing_run (v : Byte) (xs : List Byte) :
    ∃ front n, xs = front ++ List.replicate n v ∧ front.getLast? ≠ some v := by
  induction xs using List.reverseRecOn with
  | nil => exact ⟨[], 0, rfl, nofun⟩
  | append_singleton xs b ih =>
    by_cases hb : b = v
    · obtain ⟨front, n, rfl, hfront⟩ := ih
      exact ⟨front, n + 1, by rw [hb, List.replicate_succ', List.append_assoc], hfront⟩
    · exact ⟨xs ++ [b], 0, (List.append_nil _).symm, by simpa using hb⟩

theorem getLast?_append_replicate_succ (xs : List Byte) (n : Nat) (v : Byte) :
    (xs ++ List.replicate (n + 1) v).getLast? = some v := by
  rw [List.replicate_succ', ← List.append_assoc, List.getLast?_concat]

/-- A stream that ends in `m` bytes `v` has a trailing run of `v` of at least that length. -/
theorem le_trailing_run {v : Byte} {xs front : List Byte} {m k : Nat}
    (hsplit : xs ++ List.replicate m v = front ++ List.replicate k v) (hfront : front.getLast? ≠ some v) : m ≤ k := by
  by_contra hlt
  obtain ⟨d, rfl⟩ : ∃ d, m = d + 1 + k := ⟨m - k - 1, by omega⟩
  rw [List.replicate_add, ← List.append_assoc] at hsplit
  exact hfront (List.append_cancel_right hsplit ▸ getLast?_append_replicate_succ xs d v)

/-- The bytes `v` at the end of `xs` are a whole number of full descriptors, so that more of them start a new unit: the third
clause of `Enc.Tracks`. -/
def CutAtFull (v : Byte) (xs : List Byte) : Prop :=
  ∀ k front, xs = front ++ List.replicate k v → front.getLast? ≠ some v → k % 255 = 0

theorem cutAtFull_of_getLast_ne {v : Byte} {xs : List Byte} (h : xs.getLast? ≠ some v) : CutAtFull v xs := by
  rintro k front rfl _
  cases k with
  | zero => rfl
  | succ k => exact absurd (getLast?_append_replicate_succ front k v) h

theorem CutAtFull.append_full {v : Byte} {xs : List Byte} (h : CutAtFull v xs) :
    CutAtFull v (xs ++ List.replicate 255 v) := by
  intro k front hsplit hfront
  obtain ⟨n, rfl⟩ := Nat.exists_eq_add_of_le' (le_trailing_run hsplit hfront)
  rw [List.replicate_add, ← List.append_assoc] at hsplit
  have hn : n % 255 = 0 := h n front (List.append_cancel_right hsplit) hfront
  omega

/-- What is appended to a stream that is cut at full descriptors is encoded by itself. -/
theorem CutAtFull.encodeClosed_append {v : Byte} {xs : List Byte} (h : CutAtFull v xs) (n : Nat) :
    encodeClosed (xs ++ List.replicate n v) = encodeClosed xs ++ chunk v n := by
  obtain ⟨front, k, rfl, hfront⟩ := exists_trailing_run v xs
  have hk : k % 255 = 0 := h k front rfl hfront
  rw [List.append_assoc, ← List.replicate_add, encodeClosed_append_run hfront, encodeClosed_append_run hfront,
    chunk_add v hk, List.append_assoc]

end Sys2Proof.Machine
end

