-- ==== Sys2Proof/Proofs/CanonicalOutput.lean ====
section
/-!
PROOF. The output stays canonical and in step with the input (R121): what each row of the encoder makes of the split of the
consumed bytes into an emitted part and a held one.
-/

namespace Sys2Proof.Machine

/-! ### The split of the consumed bytes -/

theorem Enc.held_of_pending {e : Enc} (hpv : e.pendValid = true) :
    e.held = List.replicate (e.run.toNat + 1) e.pend := if_pos hpv

theorem Enc.held_of_none {e : Enc} (hpv : e.pendValid = false) : e.held = [] := by simp [Enc.held, hpv]

theorem Enc.emittedPart_of_split {e : Enc} {xs : List Byte} (hcur : e.src.ipos ≤ e.src.bytes.length)
    (hsplit : e.src.bytes.take e.src.ipos = xs ++ e.held) : e.emittedPart = xs := by
  have hlen : e.src.ipos = xs.length + e.held.length := by
    simpa [List.length_take_of_le hcur] using congrArg List.length hsplit
  rw [Enc.emittedPart, ← Nat.min_eq_left (Nat.sub_le e.src.ipos e.held.length), ← List.take_take, hsplit,
    List.take_left' (by omega)]

/-- `Enc.Tracks` in phase `Run`, of any split of the consumed bytes whose second part is what is held. -/
theorem Enc.tracks_iff_of_run {e : Enc} (hphase : e.phase = .run) (hcur : e.src.ipos ≤ e.src.bytes.length) :
    e.Tracks ↔ ∃ xs, e.src.bytes.take e.src.ipos = xs ++ e.held ∧ e.sink.output = encodeClosed xs ∧
      CutAtFull e.pend xs := by
  rw [Enc.Tracks, hphase]
  constructor
  · exact fun h => ⟨e.emittedPart, h⟩
  · rintro ⟨xs, hsplit, hout, hcut⟩
    rw [Enc.emittedPart_of_split hcur hsplit]
    exact ⟨hsplit, hout, hcut⟩

/-- After a byte is consumed, `xs` and what is held now are to be the bytes consumed before it, and it. -/
theorem Enc.tracks_of_byte {e e' : Enc} {b : Byte} {xs : List Byte} (htok : e.src.token = some (.byte b))
    (hphase : e'.phase = .run) (hsrc : e'.src = e.src.advance)
    (hsplit : e.src.bytes.take e.src.ipos ++ [b] = xs ++ e'.held) (hout : e'.sink.output = encodeClosed xs)
    (hcut : CutAtFull e'.pend xs) : e'.Tracks := by
  refine (Enc.tracks_iff_of_run hphase ?_).2 ⟨xs, ?_, hout, hcut⟩
  · rw [hsrc]
    exact Source.token_byte_lt htok
  · rw [hsrc, ← hsplit]
    exact Source.take_advance htok

theorem Enc.tracks_iff_of_done {e : Enc} (hphase : e.phase = .done) :
    e.Tracks ↔ e.sink.output = encodeClosed e.src.bytes := by
  rw [Enc.Tracks, hphase]

/-! ### Flushing what is held

A single pending symbol's literal, a run's descriptor and the full descriptor are each the chunk of what is held. -/

theorem Enc.literal_eq_chunk {e : Enc} (hrun : e.run = 0) : literalBytes e.pend = chunk e.pend (e.run.toNat + 1) := by
  rw [hrun]
  exact (chunk_one e.pend).symm

theorem Enc.descriptor_eq_chunk {e : Enc} (hrun : 1 ≤ e.run.toNat) (hrun' : e.run.toNat ≤ 254) :
    descriptorBytes e.pend e.countByte = chunk e.pend (e.run.toNat + 1) := by
  have hcount := Enc.countByte_toNat hrun'
  rw [← hcount, chunk_descriptor e.pend (by omega)]

theorem Enc.fullDescriptor_eq_chunk {e : Enc} (hrun : e.run = Config.runCap) :
    descriptorBytes e.pend Config.maxCount = chunk e.pend (e.run.toNat + 1) := by
  rw [hrun]
  rfl

theorem Enc.output_flush {e : Enc} {xs bs : List Byte} (hk : e.sink.wf) (hout : e.sink.output = encodeClosed xs)
    (hcut : CutAtFull e.pend xs) (hpv : e.pendValid = true) (hbs : bs = chunk e.pend (e.run.toNat + 1)) :
    (e.sink.emitAll bs).output = encodeClosed (xs ++ e.held) := by
  rw [Sink.output_emitAll _ _ hk.2, hout, Enc.held_of_pending hpv, hcut.encodeClosed_append, hbs]

/-! ### The rows -/

section
variable {e : Enc} {b : Byte} (hinv : e.Inv) (hphase : e.phase = .run) (htracks : e.Tracks)
include hinv hphase htracks

/-- The first byte is held, and nothing has been emitted (R111). -/
theorem Enc.tracks_of_adopt (htok : e.src.token = some (.byte b)) (hpv : e.pendValid = false) (hrun : e.run = 0) :
    ({ e with pend := b, pendValid := true, src := e.src.advance } : Enc).Tracks := by
  obtain ⟨xs, hsplit, hout, -⟩ := (Enc.tracks_iff_of_run hphase hinv.cursorInStream).1 htracks
  obtain rfl : xs = [] := by
    simpa [(hinv.pendIffConsumed hphase).1 hpv, Enc.held_of_none hpv] using hsplit
  refine Enc.tracks_of_byte htok hphase rfl ?_ hout (cutAtFull_of_getLast_ne nofun)
  simp [hsplit, Enc.held, hpv, hrun]

/-- A byte that is the pending symbol is held too (R112, R114). -/
theorem Enc.tracks_of_count {r : Byte} (htok : e.src.token = some (.byte b)) (hpv : e.pendValid = true)
    (hb : b = e.pend) (hr : r.toNat = e.run.toNat + 1) : ({ e with run := r, src := e.src.advance } : Enc).Tracks := by
  obtain ⟨xs, hsplit, hout, hcut⟩ := (Enc.tracks_iff_of_run hphase hinv.cursorInStream).1 htracks
  refine Enc.tracks_of_byte htok hphase rfl ?_ hout hcut
  simp [hsplit, Enc.held, hpv, hr, hb, List.replicate_succ']

/-- What was held is emitted, and the byte is held: right where the byte starts a new unit (R113, R115, R116). -/
theorem Enc.tracks_of_flush {r : Byte} {bs : List Byte} (htok : e.src.token = some (.byte b)) (hpv : e.pendValid = true)
    (hbs : bs = chunk e.pend (e.run.toNat + 1)) (hstart : b = e.pend → e.run.toNat = 254) (hr : r = 0) :
    ({ e with sink := e.sink.emitAll bs, pend := b, run := r, src := e.src.advance } : Enc).Tracks := by
  obtain ⟨xs, hsplit, hout, hcut⟩ := (Enc.tracks_iff_of_run hphase hinv.cursorInStream).1 htracks
  have hcut' : CutAtFull b (xs ++ e.held) := by
    rw [Enc.held_of_pending hpv]
    by_cases hb : b = e.pend
    · rw [hstart hb, hb]
      exact hcut.append_full
    · refine cutAtFull_of_getLast_ne fun hlast => ?_
      rw [getLast?_append_replicate_succ] at hlast
      exact hb (Option.some.inj hlast).symm
  refine Enc.tracks_of_byte htok hphase rfl ?_ (Enc.output_flush hinv.sinkWf hout hcut hpv hbs) hcut'
  simp [hsplit, Enc.held, hpv, hr]

/-- At the end of input what was held is emitted, and that is all of the input (R117, R118). -/
theorem Enc.tracks_of_flush_end {bs : List Byte} (htok : e.src.token = some .eoi) (hpv : e.pendValid = true)
    (hbs : bs = chunk e.pend (e.run.toNat + 1)) :
    ({ e with sink := e.sink.emitAll bs, phase := .done } : Enc).Tracks := by
  obtain ⟨xs, hsplit, hout, hcut⟩ := (Enc.tracks_iff_of_run hphase hinv.cursorInStream).1 htracks
  rw [Source.token_eoi.1 htok, List.take_length] at hsplit
  rw [Enc.tracks_iff_of_done rfl, hsplit]
  exact Enc.output_flush hinv.sinkWf hout hcut hpv hbs

/-- At the end of input with nothing held, all of the input is emitted (R119). -/
theorem Enc.tracks_of_end (htok : e.src.token = some .eoi) (hpv : e.pendValid = false) :
    ({ e with phase := .done } : Enc).Tracks := by
  obtain ⟨xs, hsplit, hout, -⟩ := (Enc.tracks_iff_of_run hphase hinv.cursorInStream).1 htracks
  rw [Source.token_eoi.1 htok, List.take_length, Enc.held_of_none hpv, List.append_nil] at hsplit
  rw [Enc.tracks_iff_of_done rfl, hsplit]
  exact hout

end

/-- R121: every row of R110's table keeps the output canonical. -/
theorem Enc.Effect.keeps_tracks {e e' : Enc} {i : Instr} (hstep : i.group = .encStep) (hinv : e.Inv)
    (hphase : e.phase = .run) (htracks : e.Tracks) (heff : e.Effect i e') : e'.Tracks := by
  cases heff
  case encFirst b htok hpv hrun => exact Enc.tracks_of_adopt hinv hphase htracks htok hpv hrun
  case encStart b htok hpv hb hrun => exact Enc.tracks_of_count hinv hphase htracks htok hpv hb (by rw [hrun]; rfl)
  case encExtend b htok hpv hb _ hrun =>
    exact Enc.tracks_of_count hinv hphase htracks htok hpv hb (Enc.runNext_toNat hrun)
  case encSingle b htok hpv hb hrun =>
    exact Enc.tracks_of_flush hinv hphase htracks htok hpv (Enc.literal_eq_chunk hrun) (absurd · hb) hrun
  case encCap b htok hpv _ hrun =>
    have hcap : e.run.toNat = 254 := congrArg BitVec.toNat hrun
    exact Enc.tracks_of_flush hinv hphase htracks htok hpv (Enc.fullDescriptor_eq_chunk hrun) (fun _ => hcap) rfl
  case encBreak b htok hpv hb hrun hrun' =>
    exact Enc.tracks_of_flush hinv hphase htracks htok hpv (Enc.descriptor_eq_chunk hrun hrun') (absurd · hb) rfl
  case encEndRun htok hpv hrun hrun' =>
    exact Enc.tracks_of_flush_end hinv hphase htracks htok hpv (Enc.descriptor_eq_chunk hrun hrun')
  case encEndLit htok hpv hrun =>
    exact Enc.tracks_of_flush_end hinv hphase htracks htok hpv (Enc.literal_eq_chunk hrun)
  case encEndEmpty htok hpv _ => exact Enc.tracks_of_end hinv hphase htracks htok hpv
  case emitLiteral | emitRun => nomatch hstep

/-! ### The machine -/

theorem Enc.nextStep_next {e : Enc} {i : Instr} (h : e.nextStep = .next i) :
    ∃ tok, decodeEncStep e.pendValid e.pend e.run tok = .ok i := by
  revert h
  fun_cases Enc.nextStep e <;> rintro ⟨⟩
  exact ⟨_, ‹_›⟩

theorem Dec.nextStep_next {d : Dec} {i : Instr} (h : d.nextStep = .next i) : ∃ tok, decodeDecStep d.dstate tok = i := by
  revert h
  fun_cases Dec.nextStep d <;> rintro ⟨⟩
  exact ⟨_, rfl⟩

theorem Dec.nextUnit_next {d : Dec} {i : Instr} (h : d.nextUnit = .next i) :
    (∃ bs rest, decodeUnit bs = .ok (i, rest)) ∨ d.nextStep = .next i := by
  revert h
  fun_cases Dec.nextUnit d
  · rintro ⟨⟩
    exact .inl ⟨_, _, ‹_›⟩
  · exact .inr

/-- R94: the decoder's record selects an instruction of the decoder. -/
theorem Dec.nextStep_agent {d : Dec} {i : Instr} (h : d.nextStep = .next i) : i.agent = .dec := by
  obtain ⟨tok, rfl⟩ := Dec.nextStep_next h
  obtain ⟨-, hgroup, -⟩ := decodeDecStep_reads_token d.dstate tok
  rw [Instr.agent, hgroup]

theorem Dec.nextUnit_agent {d : Dec} {i : Instr} (h : d.nextUnit = .next i) : i.agent = .dec := by
  obtain ⟨bs, rest, hunit⟩ | hstep := Dec.nextUnit_next h
  · obtain ⟨-, hgroup, -⟩ := decodeUnit_sound hunit
    rw [Instr.agent, hgroup]
  · exact Dec.nextStep_agent hstep

theorem exec_selected_by_enc_keeps_tracks {i : Instr} {s t : State} (hinv : s.enc.Inv) (htracks : s.enc.Tracks)
    (hsel : s.enc.nextStep = .next i) (h : exec i s = .next t) : t.enc.Tracks := by
  obtain ⟨tok, hrow⟩ := Enc.nextStep_next hsel
  obtain ⟨-, hgroup, -⟩ := decodeEncStep_reads_token hrow
  obtain ⟨hphase, e, heff, rfl⟩ := exec_enc_effect (by rw [Instr.agent, hgroup]) h
  exact heff.keeps_tracks hgroup hinv hphase htracks

/-- Reset makes the output of the agent's call empty, and touches nothing of the other agent (R36, R240). -/
theorem State.tracks_resetAgent {s : State} (a : Agent) (htracks : s.enc.Tracks) : (s.resetAgent a).enc.Tracks := by
  cases a
  case enc => exact Enc.tracks_reset _
  case dec => exact htracks

theorem launch_keeps_tracks {s t : State} {l : Launch} (htracks : s.enc.Tracks) (h : s.launch l = .next t) :
    t.enc.Tracks := by
  obtain ⟨k, bytes, -, -, rfl⟩ := State.launch_next.1 h
  cases l.agent
  case enc => exact Enc.tracks_reset _
  case dec => exact htracks

/-- Settles O44: a step is an instruction of the encoder that its table selects, an instruction of the decoder, which leaves
the encoder's record, a reset or a launch. -/
theorem everyStepKeepsTheOutputCanonical : Obligations.EveryStepKeepsTheOutputCanonical := by
  intro s t hinv htracks h
  obtain ⟨i, s', hexec, henc, -, -, hsel⟩ | ⟨a, rest, -, rfl⟩ | ⟨l, rest, -, hlaunch⟩ := step_next h
  · rw [← henc] at htracks
    obtain hsel | hdec : s.enc.nextStep = .next i ∨ i.agent = .dec :=
      hsel.imp_right fun hsel => hsel.elim Dec.nextStep_agent Dec.nextUnit_agent
    · exact exec_selected_by_enc_keeps_tracks (henc ▸ hinv.enc) htracks (henc ▸ hsel) hexec
    · obtain ⟨-, d, rfl⟩ := exec_dec_next hdec hexec
      exact htracks
  · exact State.tracks_resetAgent a htracks
  · exact launch_keeps_tracks (s := { s with host := rest }) htracks hlaunch

end Sys2Proof.Machine
end

