-- ==== Sys2Proof/Proofs/EncoderEmit.lean ====
section
/-!
PROOF. The emitter's two operations as instructions (R141, R142): each is its effect on the encoder's record, with the
appended bytes written out.
-/

namespace Sys2Proof.Machine

/-- Settles O10: the effect of the operation; `literalBytes_eq` writes out the literal. -/
theorem emitLiteralEscapesOnlyZero : Obligations.EmitLiteralEscapesOnlyZero := by
  intro s x hphase
  rw [← literalBytes_eq]
  exact (Enc.Effect.emitLiteral x).exec_next hphase

/-- Settles O11: the effect of the operation; `descriptorBytes_eq` writes out the descriptor. -/
theorem emitRunAppendsTheDescriptor : Obligations.EmitRunAppendsTheDescriptor := by
  intro s x n hphase hn
  rw [← descriptorBytes_eq]
  exact (Enc.Effect.emitRun x n hn).exec_next hphase

end Sys2Proof.Machine
end

