-- ==== Sys2Proof/Proofs/DecoderSteps.lean ====
section
/-!
PROOF. The decoder's rows one by one (R152 to R160), and the table as a whole (R151): a row has an effect exactly where
the table selects it, given room in `total` for one step's bytes.
-/

namespace Sys2Proof.Machine

/-! ### The rows (R152 to R160) -/

/-- Settles O12: the effect of the row, which the premises select. -/
theorem decLitCopiesTheByte : Obligations.DecLitCopiesTheByte := by
  intro s b hphase htok hds hb hfits
  exact (Dec.Effect.decLit b htok hds hb hfits).exec_next hphase

/-- Settles O13: the effect of the row, which the premises select. -/
theorem decEscEntersADescriptor : Obligations.DecEscEntersADescriptor := by
  intro s hphase htok hds
  exact (Dec.Effect.decEsc htok hds).exec_next hphase

/-- Settles O14: the effect of the row, which the premises select. -/
theorem decCntStoresTheCount : Obligations.DecCntStoresTheCount := by
  intro s b hphase htok hds hb
  exact (Dec.Effect.decCnt b htok hds hb).exec_next hphase

/-- Settles O15: the effect of the row is the exception, and no result is owed in phase `Fault`. -/
theorem decCnt0RaisesCorruptData : Obligations.DecCnt0RaisesCorruptData := by
  intro s hphase htok hds
  exact ⟨(Dec.Effect.decCnt0 htok hds).exec_next hphase, rfl⟩

/-- Settles O16: the effect of the row, which the premises select. -/
theorem decValExpandsTheRun : Obligations.DecValExpandsTheRun := by
  intro s b hphase htok hds hfits
  exact (Dec.Effect.decVal b htok hds hfits).exec_next hphase

/-- Settles O17: the effect of the row, and the result owed in phase `Done`. -/
theorem decEndLEndsTheCall : Obligations.DecEndLEndsTheCall := by
  intro s hphase htok hds
  exact ⟨(Dec.Effect.decEndL htok hds).exec_next hphase, rfl⟩

/-- Settles O18: one effect of the row for each policy; under `drop` the `dstate` left shows the truncation. -/
theorem decEndTFollowsThePolicy : Obligations.DecEndTFollowsThePolicy := by
  intro s hphase htok hds
  constructor
  · intro hpolicy
    exact ⟨(Dec.Effect.decEndTDrop htok hds hpolicy).exec_next hphase, rfl, by simp [Dec.truncated, hds]⟩
  · intro hpolicy
    exact (Dec.Effect.decEndTError htok hds hpolicy).exec_next hphase

/-! ### The table (R151) -/

theorem decodeDecStep_eoi_of_ne {ds : DState} (hds : ds ≠ .literal) : decodeDecStep ds .eoi = .decEndT := by
  cases ds
  case literal => exact absurd rfl hds
  case readingCount | readingValue => rfl

/-- A row that has an effect is the one the table selects. -/
theorem Dec.Effect.selected {cfg : Params} {d d' : Dec} {i : Instr} (heff : d.Effect cfg i d')
    (hstep : i.group = .decStep) : ∃ tok, d.src.token = some tok ∧ decodeDecStep d.dstate tok = i := by
  cases heff
  case lit | run | esc1 | illegal => nomatch hstep
  case decEndTDrop htok hds _ | decEndTError htok hds _ => exact ⟨_, htok, decodeDecStep_eoi_of_ne hds⟩
  case decLit htok hds hb _ | decCnt htok hds hb => exact ⟨_, htok, by rw [hds]; exact if_pos hb⟩
  all_goals exact ⟨_, ‹d.src.token = _›, by rw [‹d.dstate = _›]; rfl⟩

theorem Params.holds_of_le {cfg : Params} {m n : Nat} (hfits : cfg.holds n) (hle : m ≤ n) : cfg.holds m :=
  fun w hw => hle.trans_lt (hfits w hw)

/-- `DEC.END.T` has an effect under either policy. -/
theorem Dec.effect_of_truncated_end {d : Dec} (cfg : Params) (htok : d.src.token = some .eoi)
    (hds : d.dstate ≠ .literal) : ∃ d', d.Effect cfg .decEndT d' := by
  cases hpolicy : cfg.trunc
  case drop => exact ⟨_, .decEndTDrop htok hds hpolicy⟩
  case error => exact ⟨_, .decEndTError htok hds hpolicy⟩

/-- The row the table selects has an effect, where `total` has room for the bytes of one step (R182). -/
theorem Dec.effect_of_token {cfg : Params} {d : Dec} {tok : Token} (htok : d.src.token = some tok)
    (hroom : cfg.holds (d.total + 255)) : ∃ d', d.Effect cfg (decodeDecStep d.dstate tok) d' := by
  generalize hds : d.dstate = ds
  fun_cases decodeDecStep ds tok
  case case1 b hb => exact ⟨_, .decLit b htok hds hb (Params.holds_of_le hroom (by omega))⟩
  case case2 b hb =>
    obtain rfl := not_not.1 hb
    exact ⟨_, .decEsc htok hds⟩
  case case3 b hb => exact ⟨_, .decCnt b htok hds hb⟩
  case case4 b hb =>
    obtain rfl := not_not.1 hb
    exact ⟨_, .decCnt0 htok hds⟩
  case case5 b => exact ⟨_, .decVal b htok hds (Params.holds_of_le hroom (by have := d.cnt.isLt; omega))⟩
  case case6 => exact ⟨_, .decEndL htok hds⟩
  case case7 | case8 => exact Dec.effect_of_truncated_end cfg htok (by simp [hds])

/-- Settles O29: the token's row has an effect, and any row with an effect is the one selected. -/
theorem exactlyOneDecoderStep : Obligations.ExactlyOneDecoderStep := by
  intro s hphase hcur hroom
  obtain ⟨tok, htok⟩ := Source.token_exists hcur
  obtain ⟨d, heff⟩ := Dec.effect_of_token htok hroom
  obtain ⟨-, hgroup, -⟩ := decodeDecStep_reads_token s.dec.dstate tok
  refine ⟨tok, htok, hgroup, ⟨_, heff.exec_next hphase⟩, fun j t hj hexec => ?_⟩
  obtain ⟨-, d', heff', -⟩ := exec_dec_effect (by rw [Instr.agent, hj]) hexec
  obtain ⟨tok', htok', rfl⟩ := heff'.selected hj
  obtain rfl : tok' = tok := Option.some.inj (htok'.symm.trans htok)
  rfl

end Sys2Proof.Machine
end

