-- ==== Sys2Proof/Proofs/DecoderUnits.lean ====
section
/-!
PROOF. The wire units at the machine's cursor (R162, R81, R82, R92): what each appends, and that each is its token steps
in turn, a refusal of the last included.
-/

namespace Sys2Proof.Machine

/-! ### What a unit appends -/

/-- Settles O19: the bytes at the cursor select the unit's effect; `RUN` and `ESC1` come back to `Literal`. -/
theorem unitsAppendTheirMeaning : Obligations.UnitsAppendTheirMeaning := by
  intro s front rest hphase hds hpos
  refine ⟨fun b hb hbytes hfits => ?_, fun n v hn hbytes hfits => ?_, fun hbytes hfits => ?_⟩
  · exact (Dec.Effect.lit b hds (Source.startsWith_of_bytes_eq hpos hbytes) hb hfits).exec_next hphase
  · have heff := Dec.Effect.run n v hds (Source.startsWith_of_bytes_eq hpos hbytes) hn hfits
    rw [← hds] at heff
    exact heff.exec_next hphase
  · have heff := Dec.Effect.esc1 hds (Source.startsWith_of_bytes_eq hpos hbytes) hfits
    rw [← hds] at heff
    exact heff.exec_next hphase

/-! ### The bytes at the cursor as tokens -/

theorem Source.token_of_bytes_eq {x : Source} {front rest : List Byte} {b : Byte} (hpos : x.ipos = front.length)
    (hbytes : x.bytes = front ++ b :: rest) : x.token = some (.byte b) := by
  simp [Source.token_byte, hpos, hbytes]

/-- Consuming the byte at the cursor makes it the last one in front of the cursor. -/
theorem Source.advance_of_bytes_eq {x : Source} {front rest : List Byte} {b : Byte} (hpos : x.ipos = front.length)
    (hbytes : x.bytes = front ++ b :: rest) :
    x.advance.ipos = (front ++ [b]).length ∧ x.advance.bytes = (front ++ [b]) ++ rest := by
  simp [hpos, hbytes]

/-! ### A selected step, or unit, comes to its writes (refused where `total` would not fit) -/

theorem decStep_of_selected {tok : Token} {sel : Bool} {d : Dec} (after : Option Dec) (s : State)
    (hphase : d.phase = .run) (htok : d.src.token = some tok) (hsel : sel = true) :
    decStep tok sel after { s with dec := d } = decResult after s := by
  cases after <;> simp [decStep, decResult, hphase, htok, hsel]

theorem unitStep_of_bytes_eq {front bs rest : List Byte} {b : Byte} {sel : Bool} {after : Option Dec} {s : State}
    (hphase : s.dec.phase = .run) (hds : s.dec.dstate = .literal) (hpos : s.dec.src.ipos = front.length)
    (hbytes : s.dec.src.bytes = front ++ (b :: bs ++ rest)) (hsel : sel = true) :
    unitStep (b :: bs) sel after s = decResult after s := by
  have htok := Source.token_of_bytes_eq hpos hbytes
  have hstart := Source.startsWith_of_bytes_eq hpos hbytes
  simp [unitStep, hphase, htok, hds, hstart, hsel]

/-- Settles O21: the bytes at the cursor are the tokens of the unit's steps, and the last of these writes what the unit
writes. -/
theorem unitsAreTheirTokenSteps : Obligations.UnitsAreTheirTokenSteps := by
  intro s front rest hphase hds hpos
  refine ⟨?lit, ?run, ?esc1, ?illegal⟩
  case lit =>
    intro b (hb : b ≠ Config.esc) hbytes
    have htok := Source.token_of_bytes_eq hpos hbytes
    calc exec (.lit b) s
      _ = decResult (s.dec.afterLit s.cfg b) s := unitStep_of_bytes_eq hphase hds hpos hbytes (bne_iff_ne.2 hb)
      _ = exec (.decLit b) s := (decStep_of_selected _ s hphase htok (by simpa [hds] using hb)).symm
  case run =>
    intro n v hn hbytes
    obtain ⟨hpos1, hbytes1⟩ := Source.advance_of_bytes_eq hpos hbytes
    obtain ⟨hpos2, hbytes2⟩ := Source.advance_of_bytes_eq hpos1 hbytes1
    have hesc := Dec.Effect.decEsc (cfg := s.cfg) (Source.token_of_bytes_eq hpos hbytes) hds
    have hcnt : s.dec.afterEsc.Effect s.cfg (.decCnt n) (s.dec.afterEsc.afterCnt n) :=
      .decCnt n (Source.token_of_bytes_eq hpos1 hbytes1) rfl hn
    have htok := Source.token_of_bytes_eq hpos2 hbytes2
    refine ⟨_, _, hesc.exec_next hphase, hcnt.exec_next (s := { s with dec := s.dec.afterEsc }) hphase, ?_⟩
    calc exec (.run n v) s
      _ = decResult (s.dec.afterRun s.cfg n v) s := unitStep_of_bytes_eq hphase hds hpos hbytes (bne_iff_ne.2 hn)
      _ = exec (.decVal v) { s with dec := s.dec.afterEsc.afterCnt n } :=
        (decStep_of_selected (d := s.dec.afterEsc.afterCnt n) _ s hphase htok rfl).symm
  case esc1 =>
    -- one composition under two names (R92)
    intro _
    rfl
  case illegal =>
    intro hbytes
    obtain ⟨hpos1, hbytes1⟩ := Source.advance_of_bytes_eq hpos hbytes
    have hesc := Dec.Effect.decEsc (cfg := s.cfg) (Source.token_of_bytes_eq hpos hbytes) hds
    have htok := Source.token_of_bytes_eq hpos1 hbytes1
    refine ⟨_, hesc.exec_next hphase, ?_⟩
    calc exec .illegal s
      _ = decResult (some s.dec.afterEsc.raiseCorruptData) s := unitStep_of_bytes_eq hphase hds hpos hbytes rfl
      _ = exec .decCnt0 { s with dec := s.dec.afterEsc } :=
        (decStep_of_selected (d := s.dec.afterEsc) _ s hphase htok rfl).symm

end Sys2Proof.Machine
end

