-- ==== Sys2Proof/Proofs/ReferenceEncoder.lean ====
section
/-!
PROOF. The reference encoder is the closed form (R187, R188): the maximal runs are taken off the front of a stream one unit
at a time, which is also how the loop emits them. The shape and the length of an encoding follow from the closed form.
-/

namespace Sys2Proof.Machine

/-! ### The maximal runs are the only split into runs whose neighbours differ -/

/-- A run in front of a stream that does not begin with its value is the stream's first maximal run. -/
theorem maximalRuns_run_append {v : Byte} {ys : List Byte} (h : ys.head? ≠ some v) {n : Nat} (hn : 1 ≤ n) :
    maximalRuns (List.replicate n v ++ ys) = (v, n) :: maximalRuns ys := by
  obtain ⟨m, rfl⟩ := Nat.exists_eq_add_of_le' hn
  have hborder : ∀ w, (List.replicate (m + 1) v).getLast? = some w → ys.head? ≠ some w := by
    intro w hw
    obtain rfl : w = v := Option.some.inj (hw.symm.trans (getLast?_append_replicate_succ [] m v))
    exact h
  rw [maximalRuns_append hborder, maximalRuns_replicate]
  rfl

/-- The stream a list of runs stands for. -/
def expandRuns (runs : List (Byte × Nat)) : List Byte := runs.flatMap fun r => List.replicate r.2 r.1

/-- The runs are not empty, and neighbours differ in value. -/
def SeparatedRuns (runs : List (Byte × Nat)) : Prop :=
  (∀ r ∈ runs, 1 ≤ r.2) ∧ List.IsChain (fun x y => x.1 ≠ y.1) runs

theorem SeparatedRuns.of_cons {r : Byte × Nat} {runs : List (Byte × Nat)} (h : SeparatedRuns (r :: runs)) :
    1 ≤ r.2 ∧ (expandRuns runs).head? ≠ some r.1 ∧ SeparatedRuns runs := by
  obtain ⟨hlen, hchain⟩ := h
  obtain ⟨hr, hlen⟩ := List.forall_mem_cons.1 hlen
  refine ⟨hr, ?_, hlen, hchain.tail⟩
  cases runs with
  | nil => nofun
  | cons r' runs =>
    have hne : r.1 ≠ r'.1 := hchain.rel
    obtain ⟨m, hm⟩ := Nat.exists_eq_add_of_le' (hlen r' List.mem_cons_self)
    simpa [expandRuns, hm, List.replicate_succ] using hne.symm

theorem maximalRuns_expandRuns {runs : List (Byte × Nat)} (h : SeparatedRuns runs) :
    maximalRuns (expandRuns runs) = runs := by
  induction runs with
  | nil => rfl
  | cons r runs ih =>
    obtain ⟨hr, hhead, hruns⟩ := h.of_cons
    exact (maximalRuns_run_append hhead hr).trans (congrArg (r :: ·) (ih hruns))

theorem expandRuns_maximalRuns (stream : List Byte) : expandRuns (maximalRuns stream) = stream := by
  fun_induction maximalRuns stream
  case case1 => rfl
  -- the byte joins the first run, or is a run of its own
  case case2 b rest hruns ih | case3 rest b n more hruns ih | case4 b rest c n more hruns _ ih =>
    rw [hruns] at ih
    exact congrArg (b :: ·) ih

theorem separatedRuns_maximalRuns (stream : List Byte) : SeparatedRuns (maximalRuns stream) := by
  fun_induction maximalRuns stream
  case case1 => exact ⟨nofun, .nil⟩
  case case2 => exact ⟨by simp, .singleton _⟩
  -- the byte joins the first run
  case case3 hruns ih =>
    rw [hruns] at ih
    obtain ⟨hlen, hchain⟩ := ih
    obtain ⟨-, hlen⟩ := List.forall_mem_cons.1 hlen
    exact ⟨List.forall_mem_cons.2 ⟨Nat.succ_pos _, hlen⟩, by rwa [List.isChain_cons] at hchain ⊢⟩
  -- the byte is a run of its own
  case case4 hruns hne ih =>
    rw [hruns] at ih
    obtain ⟨hlen, hchain⟩ := ih
    exact ⟨List.forall_mem_cons.2 ⟨le_rfl, hlen⟩, hchain.cons_cons hne⟩

/-! ### Taking a unit off the front -/

theorem encodeClosed_run_append {v : Byte} {ys : List Byte} (h : ys.head? ≠ some v) (n : Nat) :
    encodeClosed (List.replicate n v ++ ys) = chunk v n ++ encodeClosed ys := by
  cases n with
  | zero => rfl
  | succ n => rw [encodeClosed, maximalRuns_run_append h (Nat.succ_pos n), List.flatMap_cons, encodeClosed]

theorem exists_leading_run (v : Byte) (xs : List Byte) :
    ∃ n rest, xs = List.replicate n v ++ rest ∧ rest.head? ≠ some v := by
  induction xs with
  | nil => exact ⟨0, [], rfl, nofun⟩
  | cons b xs ih =>
    by_cases hb : b = v
    · obtain ⟨n, rest, rfl, hrest⟩ := ih
      exact ⟨n + 1, rest, by rw [hb, List.replicate_succ, List.cons_append], hrest⟩
    · exact ⟨0, b :: xs, rfl, by simpa using hb⟩

/-- A unit's bytes may be taken off the front of a stream where the run ends with them, or where they are a full
descriptor's. -/
theorem encodeClosed_unit_append {v : Byte} {n : Nat} {ys : List Byte} (h : n = 255 ∨ ys.head? ≠ some v) :
    encodeClosed (List.replicate n v ++ ys) = chunk v n ++ encodeClosed ys := by
  obtain rfl | h := h
  · obtain ⟨k, rest, rfl, hrest⟩ := exists_leading_run v ys
    rw [← List.append_assoc, ← List.replicate_add, encodeClosed_run_append hrest, encodeClosed_run_append hrest,
      chunk_add v rfl, List.append_assoc]
  · exact encodeClosed_run_append h n

theorem encodeClosed_replicate (v : Byte) (n : Nat) : encodeClosed (List.replicate n v) = chunk v n := by
  simpa [encodeClosed, maximalRuns] using encodeClosed_run_append (v := v) (ys := []) nofun n

/-! ### The loop -/

theorem chunk_succ_eq_descriptor (v : Byte) {run : Nat} (hrun : 1 ≤ run) (hcap : run ≤ 254) :
    chunk v (run + 1) = [0x00, BitVec.ofNat 8 (run + 1), v] := by
  have hcount : (BitVec.ofNat 8 (run + 1)).toNat = run + 1 := by rw [BitVec.toNat_ofNat]; omega
  have h := chunk_descriptor v (n := BitVec.ofNat 8 (run + 1)) (by omega)
  rwa [hcount] at h

/-- With a symbol pending, the loop encodes the `run + 1` copies it holds and what is still to come. -/
theorem encodeLoop_pending {pv : Bool} {pend : Byte} {run : Nat} (hpv : pv = true) (hcap : run ≤ 254)
    (out rest : List Byte) :
    encodeLoop pv pend run out rest = out ++ encodeClosed (List.replicate (run + 1) pend ++ rest) := by
  fun_induction encodeLoop pv pend run out rest
  case case1 hrun => rw [List.append_nil, encodeClosed_replicate, chunk_succ_eq_descriptor _ hrun hcap]
  case case2 pend run _ hrun =>
    obtain rfl : run = 0 := by omega
    rw [List.append_nil, encodeClosed_replicate, chunk_one]
  case case3 h => exact absurd hpv h
  case case4 => nomatch hpv
  case case5 pend run _ b rest _ hb ih =>
    obtain ⟨rfl, rfl⟩ := hb
    exact ih rfl (by omega)
  case case6 pend run out b rest _ _ hb ih =>
    obtain ⟨hb, rfl⟩ := hb
    rw [ih rfl hcap, encodeClosed_unit_append (ys := b :: rest) (.inr (by simpa using hb)), chunk_one, List.append_assoc]
    rfl
  case case7 pend run out b rest _ _ _ hb ih =>
    obtain ⟨rfl, hrun⟩ := hb
    rw [ih rfl (by omega), List.replicate_succ' (n := run + 1), List.append_assoc]
    rfl
  case case8 run out b rest _ _ _ hrun ih =>
    obtain rfl : run = 254 := by simp at hrun; omega
    rw [ih rfl (by omega), encodeClosed_unit_append (ys := b :: rest) (.inl rfl), List.append_assoc]
    rfl
  case case9 pend run out b rest _ _ hzero _ hb ih =>
    have hrun : 1 ≤ run := by simp [hb] at hzero; omega
    rw [ih rfl (by omega), encodeClosed_unit_append (ys := b :: rest) (.inr (by simpa using hb)),
      chunk_succ_eq_descriptor _ hrun hcap, List.append_assoc]
    rfl

theorem encodeRef_eq_encodeClosed (stream : List Byte) : encodeRef stream = encodeClosed stream := by
  cases stream with
  | nil => rfl
  | cons b rest => exact encodeLoop_pending (pend := b) (run := 0) rfl (by omega) [] rest

/-- Settles O51: the two directions of the split, and the loop. -/
theorem referenceEncoderIsTheClosedForm : Obligations.ReferenceEncoderIsTheClosedForm := by
  refine fun stream => ⟨fun runs => ⟨?_, ?_⟩, encodeRef_eq_encodeClosed stream⟩
  · rintro rfl
    exact ⟨expandRuns_maximalRuns stream, separatedRuns_maximalRuns stream⟩
  · rintro ⟨rfl, hruns⟩
    exact (maximalRuns_expandRuns hruns).symm

/-! ### The shape of an encoding -/

theorem literalBytes_of_ne_zero {v : Byte} (hv : v ≠ 0x00) : literalBytes v = [v] := if_pos hv

theorem encodeClosed_of_minimal {stream : List Byte} (hchain : List.IsChain (fun x y => x ≠ y) stream)
    (hzero : 0x00 ∉ stream) : encodeClosed stream = stream := by
  induction stream with
  | nil => rfl
  | cons b rest ih =>
    have hhead : rest.head? ≠ some b := by
      cases rest with
      | nil => nofun
      | cons c rest => simpa using hchain.rel.symm
    obtain ⟨hb, hrest⟩ := not_or.1 (mt List.mem_cons.2 hzero)
    have hunit := encodeClosed_run_append hhead 1
    rw [chunk_one, literalBytes_of_ne_zero (Ne.symm hb), ih hchain.tail hrest] at hunit
    exact hunit

/-- Settles O54: every maximal run is one byte, and its chunk is that byte. -/
theorem minimalInputIsUnchanged : Obligations.MinimalInputIsUnchanged := by
  intro stream hchain hzero
  rw [encodeRef_eq_encodeClosed, encodeClosed_of_minimal hchain hzero]

/-! ### The length of an encoding (R193) -/

/-- The length of `chunk(v, L)`, as R193 gives it. -/
def chunkLength (r : Byte × Nat) : Nat :=
  3 * (r.2 / 255) + if r.2 % 255 = 0 then 0 else if r.2 % 255 = 1 ∧ r.1 ≠ 0x00 then 1 else 3

theorem chunk_length (v : Byte) (n : Nat) : (chunk v n).length = chunkLength (v, n) := by
  have htail : (tailBytes v (n % 255)).length =
      if n % 255 = 0 then 0 else if n % 255 = 1 ∧ v ≠ 0x00 then 1 else 3 := by
    rw [tailBytes]
    split_ifs <;> simp_all [literalBytes, Config.esc]
  rw [chunk, List.length_append, htail, chunkLength]
  simp [Nat.mul_comm]

theorem encodeRef_length (stream : List Byte) :
    (encodeRef stream).length = ((maximalRuns stream).map chunkLength).sum := by
  rw [encodeRef_eq_encodeClosed, encodeClosed, List.length_flatMap]
  simp only [chunk_length]

theorem expandRuns_length (runs : List (Byte × Nat)) : (expandRuns runs).length = (runs.map Prod.snd).sum := by
  simp [expandRuns, List.length_flatMap]

theorem chunkLength_le {r : Byte × Nat} (hr : 1 ≤ r.2) : chunkLength r ≤ 3 * r.2 := by
  rw [chunkLength]
  split_ifs <;> omega

theorem eq_of_chunkLength_eq {r : Byte × Nat} (hr : 1 ≤ r.2) (h : chunkLength r = 3 * r.2) : r = (0x00, 1) := by
  obtain ⟨v, n⟩ := r
  rw [chunkLength] at h
  dsimp only at h hr
  split_ifs at h with h0 h1
  · omega
  · omega
  · obtain rfl : n = 1 := by omega
    obtain rfl : v = 0x00 := by simpa using h1
    rfl

/-- Equal runs are no neighbours, so there is at most one. -/
theorem eq_nil_or_singleton_of_forall_eq {r : Byte × Nat} {runs : List (Byte × Nat)} (hall : ∀ x ∈ runs, x = r)
    (hchain : List.IsChain (fun x y => x.1 ≠ y.1) runs) : runs = [] ∨ runs = [r] := by
  match runs with
  | [] => exact .inl rfl
  | [x] => exact .inr (congrArg ([·]) (hall x List.mem_cons_self))
  | x :: y :: _ =>
    obtain rfl := hall x List.mem_cons_self
    obtain rfl := hall y (List.mem_cons_of_mem _ List.mem_cons_self)
    exact absurd rfl hchain.rel

theorem encodeRef_length_eq_iff (stream : List Byte) :
    (encodeRef stream).length = 3 * stream.length ↔ stream = [] ∨ stream = [0x00] := by
  constructor
  · intro hlen
    obtain ⟨hpos, hchain⟩ := separatedRuns_maximalRuns stream
    rw [encodeRef_length, ← congrArg List.length (expandRuns_maximalRuns stream), expandRuns_length,
      ← List.sum_map_mul_left] at hlen
    have hall : ∀ r ∈ maximalRuns stream, r = (0x00, 1) := by
      intro r hr
      by_contra hne
      have hlt : chunkLength r < 3 * r.2 :=
        (chunkLength_le (hpos r hr)).lt_of_ne fun h => hne (eq_of_chunkLength_eq (hpos r hr) h)
      exact (List.sum_lt_sum _ _ (fun r hr => chunkLength_le (hpos r hr)) ⟨r, hr, hlt⟩).ne hlen
    rw [← expandRuns_maximalRuns stream]
    exact (eq_nil_or_singleton_of_forall_eq hall hchain).imp (congrArg expandRuns) (congrArg expandRuns)
  · rintro (rfl | rfl) <;> rfl

/-- Settles O56: the sum over the maximal runs, and the bound, which is reached where each run is a single zero byte. -/
theorem encodingAtMostTriples : Obligations.EncodingAtMostTriples :=
  fun stream => ⟨encodeRef_length stream, encodeRef_length_le stream, encodeRef_length_eq_iff stream⟩

end Sys2Proof.Machine
end

