-- ==== Sys2Proof/Proofs/RoundTrip.lean ====
section
/-!
PROOF. The round trip (R190) by way of the canonical unit sequences of R199: the closed form encodes what such a sequence
means as the sequence's own bytes, and every stream is what one such sequence means. So an encoding is a canonical unit
sequence, which the decoder expands to the stream again and the recogniser reads back.
-/

namespace Sys2Proof.Machine

/-! ### The canonical units -/

theorem classify_literal {b : Byte} (hb : b ≠ Config.esc) (rest : List Byte) :
    classify (b :: rest) = (classify rest).cons (.lit b) 1 := by
  rw [classify.eq_def]
  exact if_pos hb

theorem classify_descriptor {n : Byte} (hn : n ≠ 0) (v : Byte) (rest : List Byte) :
    classify (Config.esc :: n :: v :: rest) = (classify rest).cons (unitName (.run n v)) 3 :=
  if_neg hn

/-- The canonical unit for `n` copies of `v`, `n` in 1..255 (R143): a literal for one copy, `ESC1` where that is the escape
symbol, a descriptor for more. -/
def unitOfRun (v n : Byte) : Instr := if 2 ≤ n.toNat then .run n v else if v = Config.esc then .esc1 else .lit v

theorem exists_unitOfRun {u : Instr} (hu : unitIsCanonical u = true) : ∃ v n : Byte, n ≠ 0 ∧ u = unitOfRun v n := by
  cases u
  case lit b => exact ⟨b, 1, by decide, (if_neg (bne_iff_ne.1 hu)).symm⟩
  case run n v =>
    have hn : 2 ≤ n.toNat := of_decide_eq_true hu
    exact ⟨v, n, by bv_omega, (if_pos hn).symm⟩
  case esc1 => exact ⟨Config.esc, 1, by decide, rfl⟩
  all_goals nomatch hu

section
variable (v : Byte) {n : Byte} (hn : n ≠ 0)
include hn

/-- The three forms of a canonical unit, for a property of its value and its count. -/
theorem unitOfRun_cases {motive : Byte → Byte → Instr → Prop}
    (run : ∀ v n : Byte, 2 ≤ n.toNat → motive v n (.run n v)) (esc1 : motive Config.esc 1 .esc1)
    (lit : ∀ v : Byte, v ≠ Config.esc → motive v 1 (.lit v)) : motive v n (unitOfRun v n) := by
  rw [unitOfRun]
  split_ifs with h2 hv
  · exact run v n h2
  all_goals obtain rfl : n = 1 := by bv_omega
  · exact hv ▸ esc1
  · exact lit v hv

theorem unitOfRun_canonical : unitIsCanonical (unitOfRun v n) = true :=
  unitOfRun_cases v hn (motive := fun _ _ u => unitIsCanonical u = true)
    (fun _ _ h2 => decide_eq_true h2) rfl fun _ hv => bne_iff_ne.2 hv

theorem unitOfRun_meaning : unitMeaning (unitOfRun v n) = List.replicate n.toNat v :=
  unitOfRun_cases v hn (motive := fun v n u => unitMeaning u = List.replicate n.toNat v)
    (fun _ _ _ => rfl) rfl fun _ _ => rfl

theorem unitOfRun_bytes : encode (unitOfRun v n) = chunk v n.toNat :=
  unitOfRun_cases v hn (motive := fun v n u => encode u = chunk v n.toNat)
    (fun v _ h2 => (chunk_descriptor v h2).symm) rfl fun _ hv => (if_pos hv).symm

theorem unitOfRun_isFull : unitIsFull (unitOfRun v n) = true ↔ n = 255 :=
  unitOfRun_cases v hn (motive := fun _ n u => unitIsFull u = true ↔ n = 255)
    (fun _ _ _ => beq_iff_eq) (by decide) fun _ _ => by simp [unitIsFull]

theorem unitOfRun_value : unitValue (unitOfRun v n) = some v := by
  obtain ⟨m, hm⟩ := Nat.exists_eq_succ_of_ne_zero (n := n.toNat) (by bv_omega)
  rw [unitValue, unitOfRun_meaning v hn, hm]
  rfl

/-- The parse reads a canonical unit back under its own name. -/
theorem classify_unitOfRun (rest : List Byte) :
    classify (encode (unitOfRun v n) ++ rest) = (classify rest).cons (unitOfRun v n) (encode (unitOfRun v n)).length :=
  unitOfRun_cases v hn
    (motive := fun _ _ u => classify (encode u ++ rest) = (classify rest).cons u (encode u).length)
    (fun v n h2 => by
      have hname : unitName (.run n v) = .run n v := if_neg (by rintro ⟨rfl, -⟩; revert h2; decide)
      rw [← hname, encode_unitName_run]
      exact classify_descriptor (by bv_omega) v rest)
    (classify_descriptor (n := 1) (by decide) Config.esc rest)
    fun _ hv => classify_literal hv rest

end

/-! ### The canonical sequences -/

theorem unitIsCanonical_of_canonicalUnits_cons {u : Instr} {us : List Instr} (h : canonicalUnits (u :: us) = true) :
    unitIsCanonical u = true := by
  cases us <;> simp_all [canonicalUnits]

theorem head?_flatMap_unitMeaning {u : Instr} (hu : unitIsCanonical u = true) (us : List Instr) :
    ((u :: us).flatMap unitMeaning).head? = unitValue u := by
  obtain ⟨v, n, hn, rfl⟩ := exists_unitOfRun hu
  have hvalue := unitOfRun_value v hn
  rw [List.flatMap_cons, List.head?_append, ← unitValue, hvalue]
  rfl

/-- The recogniser compares a unit's value with the first byte of what follows. -/
theorem canonicalUnits_cons {u : Instr} {us : List Instr} :
    canonicalUnits (u :: us) = true ↔ unitIsCanonical u = true ∧ canonicalUnits us = true ∧
      (unitIsFull u = true ∨ (us.flatMap unitMeaning).head? ≠ unitValue u) := by
  cases us with
  | nil =>
    refine ⟨fun hu => ⟨hu, rfl, .inr ?_⟩, And.left⟩
    obtain ⟨v, n, hn, rfl⟩ := exists_unitOfRun hu
    rw [unitOfRun_value v hn]
    nofun
  | cons w us =>
    simp only [canonicalUnits, Bool.and_eq_true, Bool.or_eq_true, bne_iff_ne]
    constructor
    · rintro ⟨⟨hu, hnext⟩, hus⟩
      rw [head?_flatMap_unitMeaning (unitIsCanonical_of_canonicalUnits_cons hus)]
      exact ⟨hu, hus, hnext.symm.imp_right Ne.symm⟩
    · rintro ⟨hu, hus, hnext⟩
      rw [head?_flatMap_unitMeaning (unitIsCanonical_of_canonicalUnits_cons hus)] at hnext
      exact ⟨⟨hu, hnext.symm.imp_left Ne.symm⟩, hus⟩

theorem classify_canonicalUnits {us : List Instr} (h : canonicalUnits us = true) :
    classify (us.flatMap encode) = .wellFormed us := by
  induction us with
  | nil => rfl
  | cons u us ih =>
    obtain ⟨hu, hus, -⟩ := canonicalUnits_cons.1 h
    obtain ⟨v, n, hn, rfl⟩ := exists_unitOfRun hu
    rw [List.flatMap_cons, classify_unitOfRun v hn, ih hus]
    rfl

/-- A canonical sequence is the encoding of what it means. -/
theorem encodeRef_canonicalUnits {us : List Instr} (h : canonicalUnits us = true) :
    encodeRef (us.flatMap unitMeaning) = us.flatMap encode := by
  rw [encodeRef_eq_encodeClosed]
  induction us with
  | nil => rfl
  | cons u us ih =>
    obtain ⟨hu, hus, hnext⟩ := canonicalUnits_cons.1 h
    obtain ⟨v, n, hn, rfl⟩ := exists_unitOfRun hu
    rw [unitOfRun_isFull v hn, unitOfRun_value v hn] at hnext
    rw [List.flatMap_cons, unitOfRun_meaning v hn, encodeClosed_unit_append (hnext.imp_left (congrArg BitVec.toNat)),
      ih hus, ← unitOfRun_bytes v hn, List.flatMap_cons]

/-- A stream that is not empty begins with as many equal bytes as one unit takes, 255 of them or the rest of a run. -/
theorem exists_leading_unit (v : Byte) (rest : List Byte) :
    ∃ (n : Byte) (more : List Byte), n ≠ 0 ∧ v :: rest = List.replicate n.toNat v ++ more ∧
      (n = 255 ∨ more.head? ≠ some v) := by
  obtain ⟨k, more, hsplit, hmore⟩ := exists_leading_run v (v :: rest)
  have hk : k ≠ 0 := by
    rintro rfl
    obtain rfl : v :: rest = more := hsplit
    exact hmore rfl
  by_cases hle : k ≤ 255
  · have hcount : (BitVec.ofNat 8 k).toNat = k := by rw [BitVec.toNat_ofNat]; omega
    exact ⟨BitVec.ofNat 8 k, more, by bv_omega, by rw [hcount, hsplit], .inr hmore⟩
  · obtain ⟨d, rfl⟩ := Nat.exists_eq_add_of_le (Nat.le_of_not_le hle)
    exact ⟨255, List.replicate d v ++ more, by decide, by rw [hsplit, List.replicate_add, List.append_assoc]; rfl,
      .inl rfl⟩

/-- Every stream is what a canonical sequence means: one unit after another is taken off its front. -/
theorem exists_canonicalUnits (stream : List Byte) :
    ∃ us, canonicalUnits us = true ∧ us.flatMap unitMeaning = stream := by
  match stream with
  | [] => exact ⟨[], rfl, rfl⟩
  | v :: rest =>
    obtain ⟨n, more, hn, hsplit, hnext⟩ := exists_leading_unit v rest
    have hshorter : more.length < (v :: rest).length := by
      rw [hsplit, List.length_append, List.length_replicate]
      bv_omega
    obtain ⟨us, hus, rfl⟩ := exists_canonicalUnits more
    refine ⟨unitOfRun v n :: us, canonicalUnits_cons.2 ⟨unitOfRun_canonical v hn, hus, ?_⟩, ?_⟩
    · rwa [unitOfRun_isFull v hn, unitOfRun_value v hn]
    · rw [List.flatMap_cons, unitOfRun_meaning v hn, hsplit]
termination_by stream.length
decreasing_by exact hshorter

/-! ### The round trip -/

/-- Settles O52: the encoding is the canonical sequence that means the stream, and decoding expands its units. -/
theorem decodeUndoesEncode : Obligations.DecodeUndoesEncode := by
  intro policy stream
  obtain ⟨us, hus, rfl⟩ := exists_canonicalUnits stream
  obtain ⟨hwellFormed, -, -⟩ := streamsDecodeByTheirClass (us.flatMap encode)
  obtain ⟨-, hdecode⟩ := hwellFormed us (classify_canonicalUnits hus)
  rw [encodeRef_canonicalUnits hus]
  exact hdecode policy

/-- Settles O55: a run is encoded as its chunk, and 256 is a full descriptor and one copy. -/
theorem runsSplitAt255 : Obligations.RunsSplitAt255 := by
  intro v
  have henc (n : Nat) : encodeRef (List.replicate n v) = chunk v n := by
    rw [encodeRef_eq_encodeClosed, encodeClosed_replicate]
  have hsplit : chunk v 256 = [0x00, 0xFF, v] ++ literalBytes v := chunk_add v (k := 255) rfl 1
  refine ⟨henc 255, fun hv => ?_, ?_, fun policy => ?_⟩
  · rw [henc, hsplit, literalBytes_of_ne_zero hv]
    rfl
  · rintro rfl
    rw [henc, hsplit]
    rfl
  · rw [decodeUndoesEncode, List.length_replicate]

/-! ### Decoding distributes (R197) -/

/-- The result of a decode that other bytes were decoded before: their output and total in front, their number added to the
index of a fault. -/
def DecodeResult.behind (out : List Byte) (total read : Nat) : DecodeResult → DecodeResult
  | .done out' total' ds => .done (out ++ out') (total + total') ds
  | .corrupt i => .corrupt (read + i)

theorem decodeLoop_behind (policy : TruncPolicy) (ds : DState) (cnt : Byte) (out out' : List Byte)
    (total total' read i : Nat) (stream : List Byte) :
    decodeLoop policy ds cnt (out ++ out') (total + total') (read + i) stream =
      (decodeLoop policy ds cnt out' total' i stream).behind out total read := by
  fun_induction decodeLoop policy ds cnt out' total' i stream
  -- the end of the stream
  case case1 h => exact if_pos h
  case case2 h => exact if_neg h
  -- a literal, and the escape byte
  case case3 hb ih => rw [← ih, decodeLoop, if_pos hb, List.append_assoc, Nat.add_assoc, Nat.add_assoc]
  case case4 hb ih => rw [← ih, decodeLoop, if_neg hb, Nat.add_assoc]
  -- a zero count, and any other
  case case5 => rfl
  case case6 hb ih => rw [← ih, decodeLoop, if_neg hb, Nat.add_assoc]
  -- the value of a descriptor
  case case7 ih => rw [← ih, decodeLoop, List.append_assoc, Nat.add_assoc, Nat.add_assoc]

theorem decodeRef_wellFormed_append {x : List Byte} {us : List Instr} (hclass : classify x = .wellFormed us)
    (policy : TruncPolicy) (y : List Byte) :
    decodeRef policy (x ++ y) =
      (decodeRef policy y).behind (us.flatMap unitMeaning) (us.flatMap unitMeaning).length x.length := by
  have hdesc := classify_describes x
  rw [hclass] at hdesc
  obtain ⟨hus, rfl⟩ := hdesc
  rw [decodeRef_streamUnits hus, decodeRef, ← decodeLoop_behind, List.append_nil]
  rfl

/-- Settles O59: the units of the first stream are decoded, whatever follows them; an encoding is such a stream. -/
theorem decodingDistributes : Obligations.DecodingDistributes := by
  refine ⟨fun policy x y us hclass => ?_, rfl, rfl, fun policy a b => ?_⟩
  · rw [decodeRef_wellFormed_append hclass]
    exact ⟨fun out total ds h => by rw [h]; rfl, fun i h => by rw [h]; rfl⟩
  · obtain ⟨us, hus, rfl⟩ := exists_canonicalUnits a
    rw [encodeRef_canonicalUnits hus, decodeRef_wellFormed_append (classify_canonicalUnits hus), decodeUndoesEncode]
    rfl

/-! ### The recogniser (R198, R199) -/

theorem classify_encodeRef (stream : List Byte) :
    ∃ us, classify (encodeRef stream) = .wellFormed us ∧ canonicalUnits us = true := by
  obtain ⟨us, hus, rfl⟩ := exists_canonicalUnits stream
  rw [encodeRef_canonicalUnits hus]
  exact ⟨us, classify_canonicalUnits hus, hus⟩

theorem encodeRef_meaning_iff {stream : List Byte} {us : List Instr} (hclass : classify stream = .wellFormed us) :
    encodeRef (us.flatMap unitMeaning) = stream ↔ canonicalUnits us = true := by
  constructor
  · rintro rfl
    obtain ⟨us', hclass', hus'⟩ := classify_encodeRef (us.flatMap unitMeaning)
    obtain rfl : us = us' := StreamClass.wellFormed.inj (hclass.symm.trans hclass')
    exact hus'
  · intro hus
    have hdesc := classify_describes stream
    rw [hclass] at hdesc
    obtain ⟨-, rfl⟩ := hdesc
    exact encodeRef_canonicalUnits hus

/-- Settles O60: an encoding parses as a canonical sequence, and a canonical sequence is the encoding of what it means. -/
theorem canonicalStreamsAreRecognised : Obligations.CanonicalStreamsAreRecognised := by
  refine fun stream => ⟨⟨?_, ?_⟩, fun us => encodeRef_meaning_iff⟩
  · rintro ⟨input, rfl⟩
    exact classify_encodeRef input
  · rintro ⟨us, hclass, hus⟩
    exact ⟨_, (encodeRef_meaning_iff hclass).2 hus⟩

end Sys2Proof.Machine
end

