-- ==== Sys2Proof/Proofs/Stops.lean ====
section
/-!
PROOF. The stops (R13, R50, R182, R247): every instruction runs in one of four frames, and in each frame what stops it in
phase `Run` is said once. And that no 8-bit value wraps (R181, R183).
-/

namespace Sys2Proof.Machine

/-! ### What stops a frame in phase `Run` -/

theorem encStep_outcome {tok : Token} {sel : Bool} {after : Enc} {s : State} (hphase : s.enc.phase = .run)
    (hcur : s.enc.src.ipos ≤ s.enc.src.bytes.length) :
    (∃ t, encStep tok sel after s = .next t) ∨ encStep tok sel after s = .refused .notSelected := by
  obtain ⟨tok', htok⟩ := Source.token_exists hcur
  simp only [encStep, hphase, htok]
  split
  · exact .inl ⟨_, rfl⟩
  · exact .inr rfl

theorem emitterStep_outcome {sel : Bool} {after : Sink} {s : State} (hphase : s.enc.phase = .run) :
    (∃ t, emitterStep sel after s = .next t) ∨ emitterStep sel after s = .refused .notSelected := by
  simp only [emitterStep, hphase]
  split
  · exact .inl ⟨_, rfl⟩
  · exact .inr rfl

theorem decResult_outcome (after : Option Dec) (s : State) :
    (∃ t, decResult after s = .next t) ∨ (decResult after s = .refused .totalOverflow ∧ after = none) := by
  cases after
  · exact .inr ⟨rfl, rfl⟩
  · exact .inl ⟨_, rfl⟩

theorem decStep_outcome {tok : Token} {sel : Bool} {after : Option Dec} {s : State} (hphase : s.dec.phase = .run)
    (hcur : s.dec.src.ipos ≤ s.dec.src.bytes.length) :
    (∃ t, decStep tok sel after s = .next t) ∨ decStep tok sel after s = .refused .notSelected ∨
      (decStep tok sel after s = .refused .totalOverflow ∧ after = none) := by
  obtain ⟨tok', htok⟩ := Source.token_exists hcur
  simp only [decStep, hphase, htok]
  split
  · exact (decResult_outcome after s).imp_right .inr
  · exact .inr (.inl rfl)

theorem unitStep_outcome {bs : List Byte} {sel : Bool} {after : Option Dec} {s : State} (hphase : s.dec.phase = .run)
    (hcur : s.dec.src.ipos ≤ s.dec.src.bytes.length) :
    (∃ t, unitStep bs sel after s = .next t) ∨ unitStep bs sel after s = .refused .notSelected ∨
      (unitStep bs sel after s = .refused .totalOverflow ∧ after = none) := by
  obtain ⟨tok', htok⟩ := Source.token_exists hcur
  simp only [unitStep, hphase, htok]
  split
  · exact (decResult_outcome after s).imp_right .inr
  · exact .inr (.inl rfl)

/-- Beyond the end of the stream there is no token (R50). -/
theorem Source.token_none {x : Source} (h : x.bytes.length < x.ipos) : x.token = none := by
  rw [Source.token, List.getElem?_eq_none h.le]
  exact if_neg (Nat.ne_of_gt h)

theorem encStep_past_end {tok : Token} {sel : Bool} {after : Enc} {s : State} (hphase : s.enc.phase = .run)
    (hcur : s.enc.src.bytes.length < s.enc.src.ipos) : encStep tok sel after s = .fault .cursorPastEnd := by
  simp only [encStep, hphase, Source.token_none hcur]

theorem decStep_past_end {tok : Token} {sel : Bool} {after : Option Dec} {s : State} (hphase : s.dec.phase = .run)
    (hcur : s.dec.src.bytes.length < s.dec.src.ipos) : decStep tok sel after s = .fault .cursorPastEnd := by
  simp only [decStep, hphase, Source.token_none hcur]

theorem unitStep_past_end {bs : List Byte} {sel : Bool} {after : Option Dec} {s : State} (hphase : s.dec.phase = .run)
    (hcur : s.dec.src.bytes.length < s.dec.src.ipos) : unitStep bs sel after s = .fault .cursorPastEnd := by
  simp only [unitStep, hphase, Source.token_none hcur]

/-! ### Where `total` has no room (R182) -/

theorem Params.exists_width_of_not_holds {cfg : Params} {n : Nat} (h : ¬cfg.holds n) :
    ∃ w, cfg.totalW = some w ∧ 2 ^ w ≤ n := by
  simpa [Params.holds] using h

theorem Params.not_holds_of_width {cfg : Params} {w n : Nat} (hw : cfg.totalW = some w) (h : 2 ^ w ≤ n) :
    ¬cfg.holds n :=
  fun hfits => Nat.not_lt.2 h (hfits w hw)

theorem Dec.afterLit_none {cfg : Params} {b : Byte} {d : Dec} :
    d.afterLit cfg b = none ↔ ¬cfg.holds (d.total + 1) := by
  simp [Option.eq_none_iff_forall_ne_some, Dec.afterLit_some]

theorem Dec.afterVal_none {cfg : Params} {b : Byte} {d : Dec} :
    d.afterVal cfg b = none ↔ ¬cfg.holds (d.total + d.cnt.toNat) := by
  simp [Option.eq_none_iff_forall_ne_some, Dec.afterVal_some]

theorem Dec.afterRun_none {cfg : Params} {n v : Byte} {d : Dec} :
    d.afterRun cfg n v = none ↔ ¬cfg.holds (d.total + n.toNat) := by
  simp [Option.eq_none_iff_forall_ne_some, Dec.afterRun_some]

/-! ### The frame of an instruction -/

theorem exec_encStep_frame {i : Instr} (hi : i.group = .encStep) (s : State) :
    ∃ tok sel after, exec i s = encStep tok sel after s := by
  cases i
  case encFirst | encStart | encSingle | encExtend | encCap | encBreak | encEndRun | encEndLit | encEndEmpty =>
    exact ⟨_, _, _, rfl⟩
  all_goals nomatch hi

/-- An instruction of the encoder is a token step or an operation of the emitter. -/
theorem exec_enc_frame {i : Instr} (hi : i.agent = .enc) (s : State) :
    (∃ tok sel after, exec i s = encStep tok sel after s) ∨ ∃ sel after, exec i s = emitterStep sel after s := by
  cases i
  case emitLiteral | emitRun => exact .inr ⟨_, _, rfl⟩
  case encFirst | encStart | encSingle | encExtend | encCap | encBreak | encEndRun | encEndLit | encEndEmpty =>
    exact .inl (exec_encStep_frame rfl s)
  all_goals nomatch hi

/-- An instruction of the decoder is a token step or a unit, whose writes have a value where `total` has room for the 255
bytes it appends at most. -/
theorem exec_dec_frame {i : Instr} (hi : i.agent = .dec) (s : State) :
    ∃ after, ((∃ tok sel, exec i s = decStep tok sel after s) ∨ ∃ bs sel, exec i s = unitStep bs sel after s) ∧
      (after = none → ¬s.cfg.holds (s.dec.total + 255)) := by
  have room {n : Nat} (hn : n ≤ 255) (h : ¬s.cfg.holds (s.dec.total + n)) : ¬s.cfg.holds (s.dec.total + 255) :=
    fun hfits => h (Params.holds_of_le hfits (Nat.add_le_add_left hn _))
  cases i
  case lit => exact ⟨_, .inr ⟨_, _, rfl⟩, fun h => room (by omega) (Dec.afterLit_none.1 h)⟩
  case run n v => exact ⟨_, .inr ⟨_, _, rfl⟩, fun h => room (Nat.le_of_lt_succ n.isLt) (Dec.afterRun_none.1 h)⟩
  case esc1 => exact ⟨_, .inr ⟨_, _, rfl⟩, fun h => room (by decide) (Dec.afterRun_none.1 h)⟩
  case illegal => exact ⟨_, .inr ⟨_, _, rfl⟩, nofun⟩
  case decLit => exact ⟨_, .inl ⟨_, _, rfl⟩, fun h => room (by omega) (Dec.afterLit_none.1 h)⟩
  case decVal => exact ⟨_, .inl ⟨_, _, rfl⟩, fun h => room (Nat.le_of_lt_succ s.dec.cnt.isLt) (Dec.afterVal_none.1 h)⟩
  case decEsc | decCnt | decCnt0 | decEndL | decEndT => exact ⟨_, .inl ⟨_, _, rfl⟩, nofun⟩
  all_goals nomatch hi

/-! ### The stops -/

theorem Enc.Effect.wellFormed {e e' : Enc} {i : Instr} (heff : e.Effect i e') : i.wellFormed = true := by
  cases heff
  case emitRun hn => exact decide_eq_true hn
  all_goals rfl

theorem Dec.Effect.wellFormed {cfg : Params} {d d' : Dec} {i : Instr} (heff : d.Effect cfg i d') :
    i.wellFormed = true := by
  cases heff
  case lit hb _ | decLit hb _ => exact bne_iff_ne.2 hb
  case run hn _ | decCnt hn => exact bne_iff_ne.2 hn
  all_goals rfl

/-- A row asks of its operands what `wellFormed` says (R95). -/
theorem exec_next_wellFormed {i : Instr} {s t : State} (h : exec i s = .next t) : i.wellFormed = true := by
  cases hi : i.agent
  case enc =>
    obtain ⟨-, e, heff, -⟩ := exec_enc_effect hi h
    exact heff.wellFormed
  case dec =>
    obtain ⟨-, d, heff, -⟩ := exec_dec_effect hi h
    exact heff.wellFormed

theorem exec_enc_outcome {i : Instr} {s : State} (hi : i.agent = .enc) (hphase : s.enc.phase = .run)
    (hcur : s.enc.src.ipos ≤ s.enc.src.bytes.length) :
    (∃ t, exec i s = .next t) ∨ exec i s = .refused .notSelected := by
  obtain ⟨tok, sel, after, h⟩ | ⟨sel, after, h⟩ := exec_enc_frame hi s <;> rw [h]
  · exact encStep_outcome hphase hcur
  · exact emitterStep_outcome hphase

theorem exec_dec_outcome {i : Instr} {s : State} (hi : i.agent = .dec) (hphase : s.dec.phase = .run)
    (hcur : s.dec.src.ipos ≤ s.dec.src.bytes.length) :
    (∃ t, exec i s = .next t) ∨ exec i s = .refused .notSelected ∨
      (exec i s = .refused .totalOverflow ∧ ∃ w, s.cfg.totalW = some w ∧ 2 ^ w ≤ s.dec.total + 255) := by
  obtain ⟨after, hframe, hroom⟩ := exec_dec_frame hi s
  have hwidth (h : after = none) := Params.exists_width_of_not_holds (hroom h)
  obtain ⟨tok, sel, h⟩ | ⟨bs, sel, h⟩ := hframe <;> rw [h]
  · exact (decStep_outcome hphase hcur).imp_right (.imp_right (.imp_right hwidth))
  · exact (unitStep_outcome hphase hcur).imp_right (.imp_right (.imp_right hwidth))

theorem exec_dec_past_end {i : Instr} {s : State} (hi : i.agent = .dec) (hphase : s.dec.phase = .run)
    (hcur : s.dec.src.bytes.length < s.dec.src.ipos) : exec i s = .fault .cursorPastEnd := by
  obtain ⟨after, ⟨tok, sel, h⟩ | ⟨bs, sel, h⟩, -⟩ := exec_dec_frame hi s
  · rw [h, decStep_past_end hphase hcur]
  · rw [h, unitStep_past_end hphase hcur]

theorem decLit_totalOverflow {s : State} {w : Nat} {b : Byte} (hw : s.cfg.totalW = some w) (hphase : s.dec.phase = .run)
    (htok : s.dec.src.token = some (.byte b)) (hds : s.dec.dstate = .literal) (hb : b ≠ 0x00)
    (hover : 2 ^ w ≤ s.dec.total + 1) : exec (.decLit b) s = .refused .totalOverflow := by
  have hsel : (s.dec.dstate == .literal && b != Config.esc) = true := by
    rw [hds]
    exact bne_iff_ne.2 hb
  have hnone : s.dec.afterLit s.cfg b = none := Dec.afterLit_none.2 (Params.not_holds_of_width hw hover)
  calc exec (.decLit b) s
    _ = decResult (s.dec.afterLit s.cfg b) s := decStep_of_selected (d := s.dec) _ s hphase htok hsel
    _ = .refused .totalOverflow := by rw [hnone, decResult]

theorem decVal_totalOverflow {s : State} {w : Nat} {b : Byte} (hw : s.cfg.totalW = some w) (hphase : s.dec.phase = .run)
    (htok : s.dec.src.token = some (.byte b)) (hds : s.dec.dstate = .readingValue)
    (hover : 2 ^ w ≤ s.dec.total + s.dec.cnt.toNat) : exec (.decVal b) s = .refused .totalOverflow := by
  have hnone : s.dec.afterVal s.cfg b = none := Dec.afterVal_none.2 (Params.not_holds_of_width hw hover)
  calc exec (.decVal b) s
    _ = decResult (s.dec.afterVal s.cfg b) s := decStep_of_selected (d := s.dec) _ s hphase htok (beq_iff_eq.2 hds)
    _ = .refused .totalOverflow := by rw [hnone, decResult]

/-- Settles O41: the frame of the instruction decides the stop, and an effect asks for operands its row allows. -/
theorem stopsAreNamed : Obligations.StopsAreNamed := by
  refine ⟨fun s w b hw hphase htok => ⟨decLit_totalOverflow hw hphase htok, decVal_totalOverflow hw hphase htok⟩,
    fun i s => ⟨fun hwf t h => ?_, exec_enc_outcome, exec_dec_outcome, fun hi hphase hcur => ?_, exec_dec_past_end⟩⟩
  · exact Bool.false_ne_true (hwf.symm.trans (exec_next_wellFormed h))
  · obtain ⟨tok, sel, after, h⟩ := exec_encStep_frame hi s
    rw [h, encStep_past_end hphase hcur]

/-! ### No value wraps -/

/-- Settles O45: the invariant caps `run` at 254, and every step keeps it. -/
theorem noCountByteWraps : Obligations.NoCountByteWraps := by
  intro s hinv
  have hcount := Enc.countByte_toNat hinv.enc.runCapped
  refine ⟨hcount, fun hzero => ?_, fun t h => (everyStepKeepsTheInvariant s t hinv h).enc.runCapped⟩
  rw [hzero] at hcount
  exact absurd hcount (Nat.succ_ne_zero _).symm

end Sys2Proof.Machine
end

