-- ==== Sys2Proof/Proofs/EncoderCall.lean ====
section
/-!
PROOF. An encoder call computes the reference program (R187, R245): each token step appends what it takes off the front of
the closed form of the bytes held and still to come, which the reference program is too.
-/

namespace Sys2Proof.Machine

/-! ### The sink of a call -/

theorem Sink.output_emitAll_of_fresh {k : Sink} (h : k.base = k.olen) (bs : List Byte) : (k.emitAll bs).output = bs := by
  have hnone : k.output = [] := by simp [Sink.output, h]
  rw [Sink.output_emitAll k bs h.le, hnone, List.nil_append]

theorem Sink.read_emitAll_of_lt (k : Sink) (bs : List Byte) {a : Nat} (ha : a < k.olen) :
    (k.emitAll bs).out.read a = k.out.read a := by
  rw [Sink.read_emitAll, if_neg (by omega)]

theorem Source.token_end_of_bytes_eq {x : Source} {front : List Byte} (hpos : x.ipos = front.length)
    (hbytes : x.bytes = front) : x.token = some .eoi :=
  Source.token_eoi.2 (by rw [hpos, hbytes])

/-! ### The encoder, a token at a time

What a live call has yet to append is the closed form of the bytes it holds and of those still to come. -/

/-- The registers are legal (R22, R23): R110's table has a row for every token. -/
def Enc.RegsLegal (e : Enc) : Prop := (e.pendValid = false → e.run = 0) ∧ e.run.toNat ≤ 254

theorem Enc.regsLegal_of_pending {e : Enc} (hpv : e.pendValid = true) (hcap : e.run.toNat ≤ 254) : e.RegsLegal :=
  ⟨fun h => absurd (hpv.symm.trans h) nofun, hcap⟩

theorem Enc.RegsLegal.has_effect {e : Enc} {tok : Token} (hregs : e.RegsLegal) (htok : e.src.token = some tok) :
    ∃ i e', decodeEncStep e.pendValid e.pend e.run tok = .ok i ∧ i.token = some tok ∧ e.Effect i e' := by
  obtain ⟨hnone, hcap⟩ := hregs
  obtain ⟨i, hrow⟩ := decodeEncStep_total hnone hcap e.pend tok
  obtain ⟨hi, -, -⟩ := decodeEncStep_reads_token hrow
  obtain ⟨e', heff⟩ := Enc.effect_of_selected htok hrow
  exact ⟨i, e', hrow, hi, heff⟩

/-- What is held goes out as its chunk where the next byte starts a new unit. -/
theorem Enc.encodeClosed_flush {e e' : Enc} {b : Byte} {bs : List Byte} (hpv : e.pendValid = true)
    (hbs : bs = chunk e.pend (e.run.toNat + 1)) (hstart : b = e.pend → e.run.toNat = 254) (hheld : e'.held = [b])
    (rest : List Byte) : encodeClosed (e.held ++ b :: rest) = bs ++ encodeClosed (e'.held ++ rest) := by
  rw [Enc.held_of_pending hpv, hheld, hbs]
  refine encodeClosed_unit_append ?_
  by_cases hb : b = e.pend
  · exact .inl (congrArg (· + 1) (hstart hb))
  · exact .inr (by simpa using hb)

section
variable {s : State} {e : Enc} {i : Instr} (heff : s.enc.Effect i e)
include heff

theorem Enc.Effect.phase_src_of_byte {b : Byte} (hi : i.token = some (.byte b)) :
    e.phase = s.enc.phase ∧ e.src = s.enc.src.advance := by
  cases heff <;> cases hi <;> exact ⟨rfl, rfl⟩

theorem Enc.Effect.phase_src_of_end (hi : i.token = some .eoi) : e.phase = .done ∧ e.src = s.enc.src := by
  cases heff <;> cases hi <;> exact ⟨rfl, rfl⟩

theorem Enc.Effect.regsLegal_of_byte {b : Byte} (hregs : s.enc.RegsLegal) (hi : i.token = some (.byte b)) :
    e.RegsLegal := by
  obtain ⟨-, hcap⟩ := hregs
  cases heff <;> cases hi
  case encFirst => exact Enc.regsLegal_of_pending rfl hcap
  case encSingle hpv _ _ _ => exact Enc.regsLegal_of_pending hpv hcap
  case encExtend hpv _ hrun _ _ =>
    exact Enc.regsLegal_of_pending hpv (by rw [Enc.runNext_toNat hrun]; omega)
  -- `run` becomes 1 or 0
  case encStart | encCap | encBreak => exact Enc.regsLegal_of_pending ‹s.enc.pendValid = true› (by simp)

/-- What a row appends is taken off the front of what the call has yet to append (R111 to R116). -/
theorem Enc.Effect.encodeClosed_byte {b : Byte} (hi : i.token = some (.byte b)) (rest : List Byte) :
    encodeClosed (s.enc.held ++ b :: rest) = appended s i ++ encodeClosed (e.held ++ rest) := by
  cases heff <;> cases hi
  -- nothing is appended, and the byte is held
  case encFirst hpv hrun _ => simp [appended, Enc.held, hpv, hrun]
  case encStart hpv hrun _ hb => simp [appended, Enc.held, hpv, hrun, hb, List.replicate_succ]
  case encExtend hpv _ hrun _ hb =>
    simp [appended, Enc.held, hpv, hb, Enc.runNext_toNat hrun, List.replicate_succ' (n := s.enc.run.toNat + 1)]
  -- what was held is appended, and the byte is held
  case encSingle hpv hrun _ hb =>
    exact Enc.encodeClosed_flush hpv (Enc.literal_eq_chunk hrun) (absurd · hb) (by simp [Enc.held, hpv, hrun]) rest
  case encCap hpv hrun _ _ =>
    have hcap : s.enc.run.toNat = 254 := congrArg BitVec.toNat hrun
    exact Enc.encodeClosed_flush hpv (Enc.fullDescriptor_eq_chunk hrun) (fun _ => hcap) (by simp [Enc.held, hpv]) rest
  case encBreak hpv hrun hrun' _ hb =>
    exact Enc.encodeClosed_flush hpv (Enc.descriptor_eq_chunk hrun hrun') (absurd · hb) (by simp [Enc.held, hpv]) rest

/-- At the end of input a row appends all that is held (R117 to R119). -/
theorem Enc.Effect.encodeClosed_end (hi : i.token = some .eoi) : encodeClosed s.enc.held = appended s i := by
  cases heff <;> cases hi
  case encEndRun _ hpv hrun hrun' =>
    rw [Enc.held_of_pending hpv, encodeClosed_replicate, ← Enc.descriptor_eq_chunk hrun hrun', appended]
  case encEndLit _ hpv hrun =>
    rw [Enc.held_of_pending hpv, encodeClosed_replicate, ← Enc.literal_eq_chunk hrun, appended]
  case encEndEmpty _ hpv _ => rw [Enc.held_of_none hpv, appended, encodeClosed, maximalRuns, List.flatMap_nil]

end

/-! ### The encoder's call -/

theorem step_of_enc_token {s : State} {e : Enc} {tok : Token} {i : Instr} {more : List HostEvent}
    (hhost : s.host = .token .enc :: more) (hphase : s.enc.phase = .run) (htok : s.enc.src.token = some tok)
    (hrow : decodeEncStep s.enc.pendValid s.enc.pend s.enc.run tok = .ok i) (heff : s.enc.Effect i e) :
    step s = .next { s with enc := e, host := more } :=
  (step_of_token_event (a := .enc) hhost (Enc.nextStep_of_token hphase htok hrow)).trans
    (heff.exec_next (s := { s with host := more }) hphase)

/-- From any point of a live call, the tokens left end it, with the closed form of the bytes held and left appended. -/
theorem encoder_run {s : State} {front rest : List Byte} {more : List HostEvent} (hphase : s.enc.phase = .run)
    (hregs : s.enc.RegsLegal) (hpos : s.enc.src.ipos = front.length) (hbytes : s.enc.src.bytes = front ++ rest)
    (hhost : s.host = List.replicate (rest.length + 1) (.token .enc) ++ more) :
    ∃ e, Host.Core.run Sys2Proof.core (rest.length + 1) s = .next { s with enc := e, host := more } ∧ e.phase = .done ∧
      e.src = { s.enc.src with ipos := s.enc.src.bytes.length } ∧
      e.sink = s.enc.sink.emitAll (encodeClosed (s.enc.held ++ rest)) := by
  induction rest generalizing s front with
  | nil =>
    rw [List.append_nil] at hbytes
    have htok := Source.token_end_of_bytes_eq hpos hbytes
    obtain ⟨i, e, hrow, hi, heff⟩ := hregs.has_effect htok
    obtain ⟨hdone, hsrc⟩ := heff.phase_src_of_end hi
    refine ⟨e, core_run_succ.2 ⟨_, step_of_enc_token hhost hphase htok hrow heff, core_run_zero.2 rfl⟩, hdone, ?_, ?_⟩
    · rw [hsrc, hbytes, ← hpos]
    · rw [heff.sink_eq, List.append_nil, heff.encodeClosed_end hi]
  | cons b rest ih =>
    have htok := Source.token_of_bytes_eq hpos hbytes
    obtain ⟨i, e, hrow, hi, heff⟩ := hregs.has_effect htok
    obtain ⟨hphase', hsrc⟩ := heff.phase_src_of_byte hi
    obtain ⟨hpos', hbytes'⟩ := Source.advance_of_bytes_eq hpos hbytes
    rw [← hsrc] at hpos' hbytes'
    have hstep := step_of_enc_token hhost hphase htok hrow heff
    obtain ⟨e', hrun, hdone, hsrc', hsink⟩ := ih (s := { s with enc := e, host := _ }) (hphase'.trans hphase)
      (heff.regsLegal_of_byte hregs hi) hpos' hbytes' rfl
    refine ⟨e', core_run_succ.2 ⟨_, hstep, hrun⟩, hdone, ?_, ?_⟩
    · rw [hsrc', hsrc]
      rfl
    · rw [hsink, heff.sink_eq, heff.encodeClosed_byte hi, Sink.emitAll_append]

/-- Settles O49: the call from its first token. -/
theorem encodeCallIsTheReferenceProgram : Obligations.EncodeCallIsTheReferenceProgram := by
  rintro s stream rest ⟨hphase, hpv, hrun, hpos, hbase⟩ hbytes hhost
  have hregs : s.enc.RegsLegal := ⟨fun _ => hrun, by rw [hrun]; decide⟩
  obtain ⟨e, hcall, hdone, hsrc, hsink⟩ := encoder_run (front := []) hphase hregs hpos hbytes hhost
  rw [Enc.held_of_none hpv, List.nil_append, ← encodeRef_eq_encodeClosed] at hsink
  refine ⟨_, hcall, hdone, ?_, ?_, ?_, ?_, rfl, rfl, rfl⟩
  · rw [hsink, Sink.output_emitAll_of_fresh hbase]
  · rw [hsink, Sink.emitAll_base, hbase]
  · rw [hsrc, hbytes]
  · intro a ha
    rw [hsink, Sink.read_emitAll_of_lt _ _ ha]

end Sys2Proof.Machine
end

