-- ==== Sys2Proof/Proofs/DecoderCall.lean ====
section
/-!
PROOF. A decoder call computes the reference program (R189, R214, R245): a token step does to the record what one turn of
the loop does to its accumulators, so up to the last token the machine is the loop under `drop`; the last token ends the
call, or takes the exception. And the round trip on the machine.
-/

namespace Sys2Proof.Machine

/-! ### The reference program -/

theorem decodeLoop_total_le {policy : TruncPolicy} {ds ds' : DState} {cnt : Byte} {out out' stream : List Byte}
    {total total' i : Nat} (h : decodeLoop policy ds cnt out total i stream = .done out' total' ds') :
    total ≤ total' := by
  fun_induction decodeLoop policy ds cnt out total i stream
  -- `CorruptData`, at the end or at a zero count
  case case1 | case5 => nomatch h
  -- the end of the stream
  case case2 =>
    obtain ⟨-, rfl, -⟩ := DecodeResult.done.inj h
    exact le_rfl
  case case3 ih | case7 ih => exact (Nat.le_add_right _ _).trans (ih h)
  case case4 ih | case6 ih => exact ih h

/-- A decode that ends without fault never met the policy (R160). -/
theorem decodeLoop_drop_of_done {policy : TruncPolicy} {ds ds' : DState} {cnt : Byte} {out out' stream : List Byte}
    {total total' i : Nat} (h : decodeLoop policy ds cnt out total i stream = .done out' total' ds') :
    decodeLoop .drop ds cnt out total i stream = .done out' total' ds' ∧ (ds' ≠ .literal → policy = .drop) := by
  fun_induction decodeLoop policy ds cnt out total i stream
  -- `CorruptData`, at the end or at a zero count
  case case1 | case5 => nomatch h
  -- the end of the stream
  case case2 hend =>
    obtain ⟨rfl, rfl, rfl⟩ := DecodeResult.done.inj h
    refine ⟨if_neg nofun, fun hds => ?_⟩
    cases policy
    · rfl
    · exact absurd ⟨hds, rfl⟩ hend
  case case3 hb ih => rw [decodeLoop, if_pos hb]; exact ih h
  case case4 hb ih => rw [decodeLoop, if_neg hb]; exact ih h
  case case6 hb ih => rw [decodeLoop, if_neg hb]; exact ih h
  case case7 ih => exact ih h

/-- What stands at the cursor of a fault, in the interpreter state before it: a zero count (R156), or under `error` the end
of input inside a descriptor (R160). -/
def FaultsAt (policy : TruncPolicy) (ds : DState) (suffix : List Byte) : Prop :=
  (ds = .readingCount ∧ ∃ rest, suffix = 0 :: rest) ∨ (ds ≠ .literal ∧ policy = .error ∧ suffix = [])

theorem FaultsAt.dstate_ne_literal {policy : TruncPolicy} {ds : DState} {suffix : List Byte}
    (h : FaultsAt policy ds suffix) : ds ≠ .literal := by
  obtain ⟨rfl, -⟩ | ⟨hds, -⟩ := h
  · nofun
  · exact hds

/-- From these accumulators the loop faults at index `j`: before that it is the loop under `drop` on the bytes in front. -/
def FaultsAfter (policy : TruncPolicy) (ds : DState) (cnt : Byte) (out : List Byte) (total i : Nat) (stream : List Byte)
    (j : Nat) : Prop :=
  ∃ xs suffix out' total' ds', stream = xs ++ suffix ∧ j = i + xs.length ∧
    decodeLoop .drop ds cnt out total i xs = .done out' total' ds' ∧ FaultsAt policy ds' suffix

theorem FaultsAfter.here {policy : TruncPolicy} {ds : DState} {cnt : Byte} {out stream : List Byte} {total i j : Nat}
    (hj : DecodeResult.corrupt i = .corrupt j) (hfault : FaultsAt policy ds stream) :
    FaultsAfter policy ds cnt out total i stream j :=
  ⟨[], stream, out, total, ds, rfl, (DecodeResult.corrupt.inj hj).symm, if_neg nofun, hfault⟩

/-- A turn of the loop that does not fault. -/
theorem FaultsAfter.turn {policy : TruncPolicy} {ds ds' : DState} {cnt cnt' b : Byte} {out out' rest : List Byte}
    {total total' i j : Nat} (h : FaultsAfter policy ds' cnt' out' total' (i + 1) rest j)
    (hturn : ∀ xs, decodeLoop .drop ds cnt out total i (b :: xs) = decodeLoop .drop ds' cnt' out' total' (i + 1) xs) :
    FaultsAfter policy ds cnt out total i (b :: rest) j := by
  obtain ⟨xs, suffix, outX, totalX, dsX, rfl, rfl, hloop, hfault⟩ := h
  refine ⟨b :: xs, suffix, outX, totalX, dsX, rfl, ?_, (hturn xs).trans hloop, hfault⟩
  rw [List.length_cons]
  omega

theorem decodeLoop_corrupt {policy : TruncPolicy} {ds : DState} {cnt : Byte} {out stream : List Byte}
    {total i j : Nat} (h : decodeLoop policy ds cnt out total i stream = .corrupt j) :
    FaultsAfter policy ds cnt out total i stream j := by
  fun_induction decodeLoop policy ds cnt out total i stream
  -- the end of the stream inside a descriptor, and a zero count
  case case1 hend => exact .here h (.inr ⟨hend.1, hend.2, rfl⟩)
  case case5 rest => exact .here h (.inl ⟨rfl, rest, rfl⟩)
  case case2 => nomatch h
  case case3 hb ih => exact (ih h).turn fun xs => by rw [decodeLoop, if_pos hb]
  case case4 hb ih => exact (ih h).turn fun xs => by rw [decodeLoop, if_neg hb]
  case case6 hb ih => exact (ih h).turn fun xs => by rw [decodeLoop, if_neg hb]
  case case7 ih => exact (ih h).turn fun xs => by rw [decodeLoop]

theorem decodeRef_corrupt {policy : TruncPolicy} {stream : List Byte} {i : Nat}
    (h : decodeRef policy stream = .corrupt i) :
    ∃ out total ds, decodeRef .drop (stream.take i) = .done out total ds ∧ FaultsAt policy ds (stream.drop i) ∧
      i ≤ stream.length := by
  obtain ⟨xs, suffix, out, total, ds, rfl, hi, hloop, hfault⟩ := decodeLoop_corrupt h
  obtain rfl : i = xs.length := by omega
  rw [List.take_left, List.drop_left, List.length_append]
  exact ⟨out, total, ds, hloop, hfault, Nat.le_add_right _ _⟩

/-! ### The decoder, a token at a time -/

/-- `d'` is the record `d` of a live call after `n` more bytes, which appended `bs`. -/
structure Dec.Reads (d : Dec) (n : Nat) (bs : List Byte) (d' : Dec) : Prop where
  phase : d'.phase = d.phase
  err : d'.err = d.err
  src : d'.src = { d.src with ipos := d.src.ipos + n }
  sink : d'.sink = d.sink.emitAll bs

theorem Dec.Reads.trans {d d' d'' : Dec} {m n : Nat} {bs bs' : List Byte} (h : d.Reads m bs d')
    (h' : d'.Reads n bs' d'') : d.Reads (m + n) (bs ++ bs') d'' where
  phase := h'.phase.trans h.phase
  err := h'.err.trans h.err
  src := by rw [h'.src, h.src, Nat.add_assoc]
  sink := by rw [h'.sink, h.sink, Sink.emitAll_append]

/-- One turn of the loop is one step. -/
theorem Dec.effect_of_loop {cfg : Params} {d : Dec} {b : Byte} {rest out out' : List Byte} {i total' : Nat}
    {ds' : DState} (htok : d.src.token = some (.byte b)) (hfits : cfg.holds total')
    (hloop : decodeLoop .drop d.dstate d.cnt out d.total i (b :: rest) = .done out' total' ds') :
    ∃ d' bs, d.Effect cfg (decodeDecStep d.dstate (.byte b)) d' ∧ d.Reads 1 bs d' ∧
      decodeLoop .drop d'.dstate d'.cnt (out ++ bs) d'.total (i + 1) rest = .done out' total' ds' := by
  cases hds : d.dstate <;> rw [hds, decodeLoop] at hloop
  case literal =>
    by_cases hb : b = 0x00
    · subst hb
      rw [if_neg (not_not.2 rfl)] at hloop
      exact ⟨_, [], .decEsc htok hds, ⟨rfl, rfl, rfl, rfl⟩, by rwa [List.append_nil]⟩
    · rw [if_pos hb] at hloop
      have hroom := Params.holds_of_le hfits (decodeLoop_total_le hloop)
      rw [decodeDecStep, if_pos (show b ≠ Config.esc from hb)]
      exact ⟨_, [b], .decLit b htok hds hb hroom, ⟨rfl, rfl, rfl, rfl⟩, by rwa [← hds] at hloop⟩
  case readingCount =>
    by_cases hb : b = 0x00
    · rw [if_pos hb] at hloop
      nomatch hloop
    · rw [if_neg hb] at hloop
      rw [decodeDecStep, if_pos hb]
      exact ⟨_, [], .decCnt b htok hds hb, ⟨rfl, rfl, rfl, rfl⟩, by rwa [List.append_nil]⟩
  case readingValue =>
    have hroom := Params.holds_of_le hfits (decodeLoop_total_le hloop)
    exact ⟨_, d.copies b, .decVal b htok hds hroom, ⟨rfl, rfl, rfl, rfl⟩, hloop⟩

theorem step_of_dec_token {s : State} {d : Dec} {tok : Token} {more : List HostEvent}
    (hhost : s.host = .token .dec :: more) (hphase : s.dec.phase = .run) (htok : s.dec.src.token = some tok)
    (heff : s.dec.Effect s.cfg (decodeDecStep s.dec.dstate tok) d) :
    step s = .next { s with dec := d, host := more } :=
  (step_of_token_event (a := .dec) hhost (Dec.nextStep_of_token hphase htok)).trans
    (heff.exec_next (s := { s with host := more }) hphase)

/-- From any point of a live call, the tokens of bytes the loop under `drop` takes without fault leave the call live, with
the loop's accumulators in its registers and what the loop puts out appended. -/
theorem decoder_run {s : State} {front xs suffix out out' : List Byte} {i total' : Nat} {ds' : DState}
    {more : List HostEvent} (hphase : s.dec.phase = .run) (hpos : s.dec.src.ipos = front.length)
    (hbytes : s.dec.src.bytes = front ++ (xs ++ suffix)) (hfits : s.cfg.holds total')
    (hloop : decodeLoop .drop s.dec.dstate s.dec.cnt out s.dec.total i xs = .done out' total' ds')
    (hhost : s.host = List.replicate xs.length (.token .dec) ++ more) :
    ∃ d bs, Host.Core.run Sys2Proof.core xs.length s = .next { s with dec := d, host := more } ∧
      s.dec.Reads xs.length bs d ∧ out' = out ++ bs ∧ d.total = total' ∧ d.dstate = ds' := by
  induction xs generalizing s front out i with
  | nil =>
    have hmore : s.host = more := hhost
    obtain ⟨rfl, htotal, hds⟩ := DecodeResult.done.inj ((if_neg nofun).symm.trans hloop)
    exact ⟨s.dec, [], core_run_zero.2 (by rw [← hmore]), ⟨rfl, rfl, rfl, rfl⟩,
      (List.append_nil _).symm, htotal, hds⟩
  | cons b xs ih =>
    have htok := Source.token_of_bytes_eq hpos hbytes
    obtain ⟨d, bs, heff, hreads, hloop'⟩ := Dec.effect_of_loop htok hfits hloop
    obtain ⟨hpos', hbytes'⟩ := Source.advance_of_bytes_eq hpos hbytes
    have hsrc : d.src = s.dec.src.advance := hreads.src
    rw [← hsrc] at hpos' hbytes'
    obtain ⟨d', bs', hrun, hreads', hout, hregs⟩ := ih (s := { s with dec := d, host := _ })
      (hreads.phase.trans hphase) hpos' hbytes' hfits hloop' rfl
    refine ⟨d', bs ++ bs', core_run_succ.2 ⟨_, step_of_dec_token hhost hphase htok heff, hrun⟩, ?_, ?_, hregs⟩
    · rw [List.length_cons, Nat.add_comm]
      exact hreads.trans hreads'
    · rw [hout, List.append_assoc]

/-- The same from the first token of a call (R245), against the reference program. -/
theorem decoder_call {s : State} {xs suffix out : List Byte} {total : Nat} {ds : DState} {more : List HostEvent}
    (hfresh : s.dec.fresh) (hbytes : s.dec.src.bytes = xs ++ suffix) (hfits : s.cfg.holds total)
    (hdecode : decodeRef .drop xs = .done out total ds)
    (hhost : s.host = List.replicate xs.length (.token .dec) ++ more) :
    ∃ d, Host.Core.run Sys2Proof.core xs.length s = .next { s with dec := d, host := more } ∧
      s.dec.Reads xs.length out d ∧ d.total = total ∧ d.dstate = ds := by
  obtain ⟨hphase, hds, htotal, -, hpos, -⟩ := hfresh
  rw [decodeRef, decodeLoop_literal_cnt .drop 0 s.dec.cnt, ← hds, ← htotal] at hdecode
  obtain ⟨d, bs, hrun, hreads, rfl, hregs⟩ := decoder_run (front := []) hphase hpos hbytes hfits hdecode hhost
  exact ⟨d, hrun, hreads, hregs⟩

/-! ### The last token -/

theorem Dec.effect_of_end {cfg : Params} {d : Dec} (htok : d.src.token = some .eoi)
    (hpolicy : d.dstate ≠ .literal → cfg.trunc = .drop) : d.Effect cfg (decodeDecStep d.dstate .eoi) d.afterEnd := by
  by_cases hds : d.dstate = .literal
  · rw [hds]
    exact .decEndL htok hds
  · rw [decodeDecStep_eoi_of_ne hds]
    exact .decEndTDrop htok hds (hpolicy hds)

theorem Dec.effect_of_faultsAt {cfg : Params} {d : Dec} {front suffix : List Byte} (hpos : d.src.ipos = front.length)
    (hbytes : d.src.bytes = front ++ suffix) (hfault : FaultsAt cfg.trunc d.dstate suffix) :
    ∃ tok, d.src.token = some tok ∧ d.Effect cfg (decodeDecStep d.dstate tok) d.raiseCorruptData := by
  obtain ⟨hds, rest, rfl⟩ | ⟨hds, hpolicy, rfl⟩ := hfault
  · have htok := Source.token_of_bytes_eq hpos hbytes
    refine ⟨_, htok, ?_⟩
    rw [hds]
    exact .decCnt0 htok hds
  · have htok := Source.token_end_of_bytes_eq hpos (hbytes.trans (List.append_nil _))
    refine ⟨_, htok, ?_⟩
    rw [decodeDecStep_eoi_of_ne hds]
    exact .decEndTError htok hds hpolicy

/-- The tokens of a call up to its last, and the last, which leaves the cursor and the sink. -/
theorem run_then_dec_token {s : State} {n : Nat} {d d' : Dec} {tok : Token} {more : List HostEvent}
    (hrun : Host.Core.run Sys2Proof.core n s = .next { s with dec := d, host := .token .dec :: more })
    (hphase : d.phase = .run) (htok : d.src.token = some tok)
    (heff : d.Effect s.cfg (decodeDecStep d.dstate tok) d') :
    Host.Core.run Sys2Proof.core (n + 1) s = .next { s with dec := d', host := more } :=
  core_run_add hrun (core_run_succ.2
    ⟨_, step_of_dec_token (s := { s with dec := d, host := _ }) rfl hphase htok heff, core_run_zero.2 rfl⟩)

/-! ### What a call leaves behind -/

theorem Dec.Reads.of_fresh {d d' : Dec} {n : Nat} {out : List Byte} (hfresh : d.fresh) (h : d.Reads n out d') :
    d'.phase = .run ∧ d'.err = .none ∧ d'.src.ipos = n ∧ d'.src.bytes = d.src.bytes ∧ d'.sink.output = out ∧
      d'.sink.base = d.sink.olen ∧ ∀ a, a < d.sink.olen → d'.sink.out.read a = d.sink.out.read a := by
  obtain ⟨hphase, -, -, herr, hpos, hbase⟩ := hfresh
  rw [h.phase, h.err, h.src, h.sink, hpos]
  exact ⟨hphase, herr, Nat.zero_add n, rfl, Sink.output_emitAll_of_fresh hbase out, (Sink.emitAll_base ..).trans hbase,
    fun _ ha => Sink.read_emitAll_of_lt _ _ ha⟩

/-- Settles O50: the bytes the program takes without fault, and then the end of the call or the exception. -/
theorem decodeCallIsTheReferenceProgram : Obligations.DecodeCallIsTheReferenceProgram := by
  intro s stream rest hfresh hbytes
  refine ⟨?returns, ?faults, ?inDescriptor⟩
  case returns =>
    intro out total ds hdecode hfits hhost
    obtain ⟨hdrop, hpolicy⟩ := decodeLoop_drop_of_done hdecode
    rw [List.replicate_succ', List.append_assoc] at hhost
    obtain ⟨d, hrun, hreads, rfl, rfl⟩ := decoder_call hfresh (hbytes.trans (List.append_nil _).symm) hfits hdrop hhost
    obtain ⟨hphase, herr, hpos, hsame, hout, hbase, hkept⟩ := hreads.of_fresh hfresh
    have htok := Source.token_end_of_bytes_eq hpos (hsame.trans hbytes)
    exact ⟨_, run_then_dec_token hrun hphase htok (Dec.effect_of_end htok hpolicy), rfl, herr, hout, rfl, rfl, hbase,
      hkept, rfl, rfl, rfl⟩
  case faults =>
    intro i out total ds hcorrupt hprefix hfits hhost
    obtain ⟨_, _, _, hprefix', hfault, hle⟩ := decodeRef_corrupt hcorrupt
    obtain ⟨rfl, rfl, rfl⟩ := DecodeResult.done.inj (hprefix'.symm.trans hprefix)
    have hlen : (stream.take i).length = i := List.length_take_of_le hle
    have hcut : stream = stream.take i ++ stream.drop i := (List.take_append_drop i stream).symm
    rw [List.replicate_succ', List.append_assoc, ← hlen] at hhost
    obtain ⟨d, hrun, hreads, rfl, rfl⟩ := decoder_call hfresh (hbytes.trans hcut) hfits hprefix hhost
    obtain ⟨hphase, -, hpos, hsame, hout, hbase, hkept⟩ := hreads.of_fresh hfresh
    obtain ⟨tok, htok, heff⟩ := Dec.effect_of_faultsAt hpos (hsame.trans (hbytes.trans hcut)) hfault
    have hcall := run_then_dec_token hrun hphase htok heff
    rw [hlen] at hcall hpos
    exact ⟨_, hcall, rfl, rfl, hpos, rfl, hout, rfl, rfl, hbase, hkept, rfl, rfl, rfl⟩
  case inDescriptor =>
    intro i hcorrupt
    obtain ⟨out, total, ds, hprefix, hfault, -⟩ := decodeRef_corrupt hcorrupt
    exact ⟨out, total, ds, hfault.dstate_ne_literal, hprefix⟩

/-! ### The round trip on the machine -/

theorem step_of_launch_event {s : State} {l : Launch} {more : List HostEvent} (hhost : s.host = .launch l :: more) :
    step s = ({ s with host := more } : State).launch l := by
  simp [step, hhost]

/-- The finished output of the encoder becomes the input of a fresh decoder call (R57). -/
theorem step_of_handover {s : State} {more : List HostEvent}
    (hhost : s.host = .launch { agent := .dec, input := .encoderOutput, sink := .kept } :: more)
    (hdone : s.enc.phase = .done) :
    ∃ t, step s = .next t ∧ t.dec.fresh ∧ t.dec.src.bytes = s.enc.sink.output ∧ t.enc = s.enc ∧ t.cfg = s.cfg ∧
      t.host = more := by
  have hlaunch : ({ s with host := more } : State).launch ⟨.dec, .encoderOutput, .kept⟩ =
      .next ((({ s with host := more } : State).provide s.enc.sink.output s.dec.sink .dec).resetAgent .dec) :=
    State.launch_next.2 ⟨_, _, rfl, if_pos hdone, rfl⟩
  exact ⟨_, (step_of_launch_event hhost).trans hlaunch, Dec.fresh_reset _, rfl, rfl, rfl, rfl⟩

/-- Settles O53: the encoder's call, the hand-over and the decoder's call, and the round trip of the reference programs. -/
theorem machineRoundTrip : Obligations.MachineRoundTrip := by
  intro s stream rest hfresh hbytes hfits hhost
  obtain ⟨s₁, hrun₁, hdone₁, hout₁, -, -, -, -, hcfg₁, hhost₁⟩ :=
    encodeCallIsTheReferenceProgram s stream _ hfresh hbytes hhost
  obtain ⟨s₂, hstep₂, hfresh₂, hbytes₂, henc₂, hcfg₂, hhost₂⟩ := step_of_handover hhost₁ hdone₁
  rw [← hcfg₁, ← hcfg₂] at hfits
  obtain ⟨hreturns, -, -⟩ := decodeCallIsTheReferenceProgram s₂ _ rest hfresh₂ (hbytes₂.trans hout₁)
  obtain ⟨t, hrun, hdone, herr, hout, hresult, hds, -, -, henc, -, hrest⟩ :=
    hreturns _ _ _ (decodeUndoesEncode s₂.cfg.trunc stream) hfits hhost₂
  have hrun₂ := core_run_add (j := 1) (core_run_succ.2 ⟨_, hstep₂, core_run_zero.2 rfl⟩) hrun
  exact ⟨t, core_run_add hrun₁ hrun₂, hdone, hds, herr, hout, hresult, by rw [henc, henc₂, hdone₁], hrest⟩

end Sys2Proof.Machine
end

