-- ==== Sys2Proof/Proofs/Exceptions.lean ====
section
/-!
PROOF. The exception and its stickiness (R213 to R216): which rows enter `Fault`, and that nothing but the host's reset or
launch of an agent changes the record of its call once that is over.
-/

namespace Sys2Proof.Machine

/-! ### What enters `Fault` -/

/-- R213: only the rows that take the exception enter `Fault`; every other row keeps `phase` or ends the call. -/
theorem Dec.Effect.of_enters_fault {cfg : Params} {d d' : Dec} {i : Instr} (heff : d.Effect cfg i d')
    (hphase : d.phase = .run) (hfault : d'.phase = .fault) :
    (i = .decCnt0 ∨ i = .illegal ∨ (i = .decEndT ∧ cfg.trunc = .error)) ∧ d'.err = .corruptData := by
  cases heff
  case decCnt0 => exact ⟨.inl rfl, rfl⟩
  case illegal => exact ⟨.inr (.inl rfl), rfl⟩
  case decEndTError hpolicy => exact ⟨.inr (.inr ⟨rfl, hpolicy⟩), rfl⟩
  all_goals simp [hphase] at hfault

/-- Settles O27: an encoder's instruction leaves the decoder's record, and a decoder's has one of the effects of its table. -/
theorem onlyZeroCountOrTruncationFaults : Obligations.OnlyZeroCountOrTruncationFaults := by
  intro i s t h
  cases hi : i.agent
  case enc =>
    obtain ⟨-, e, rfl⟩ := exec_enc_next hi h
    exact ⟨fun hne hfault => absurd hfault hne, id⟩
  case dec =>
    obtain ⟨hphase, d, heff, rfl⟩ := exec_dec_effect hi h
    exact ⟨fun _ => heff.of_enters_fault hphase, heff.err_ne_invalidArgument⟩

/-! ### A call that is over -/

/-- An instruction runs in phase `Run` of its agent, so it leaves a record in another phase as it is. -/
theorem exec_keeps_over {i : Instr} {s t : State} (h : exec i s = .next t) :
    (s.dec.phase ≠ .run → t.dec = s.dec) ∧ (s.enc.phase ≠ .run → t.enc = s.enc) := by
  cases hi : i.agent
  case enc =>
    obtain ⟨hphase, e, rfl⟩ := exec_enc_next hi h
    exact ⟨fun _ => rfl, absurd hphase⟩
  case dec =>
    obtain ⟨hphase, d, rfl⟩ := exec_dec_next hi h
    exact ⟨absurd hphase, fun _ => rfl⟩

/-- R240: reset touches nothing of the other agent. -/
theorem State.resetAgent_other (s : State) (a : Agent) :
    (a = .dec ∨ (s.resetAgent a).dec = s.dec) ∧ (a = .enc ∨ (s.resetAgent a).enc = s.enc) := by
  cases a
  case enc => exact ⟨.inr rfl, .inl rfl⟩
  case dec => exact ⟨.inl rfl, .inr rfl⟩

/-- R245: a launch touches nothing of the other agent. -/
theorem State.launch_other {s t : State} {l : Launch} (h : s.launch l = .next t) :
    (l.agent = .dec ∨ t.dec = s.dec) ∧ (l.agent = .enc ∨ t.enc = s.enc) := by
  obtain ⟨k, bytes, -, -, rfl⟩ := State.launch_next.1 h
  cases l.agent
  case enc => exact ⟨.inr rfl, .inl rfl⟩
  case dec => exact ⟨.inl rfl, .inr rfl⟩

/-- Settles O40: a step is an instruction, which leaves a record whose call is over, or a reset or a launch, which leaves the
record of the other agent. -/
theorem anOverCallIsStableUntilReset : Obligations.AnOverCallIsStableUntilReset := by
  intro s t h
  obtain ⟨i, s', hexec, henc, hdec, -⟩ | ⟨a, rest, hhost, rfl⟩ | ⟨l, rest, hhost, hlaunch⟩ := step_next h
  · rw [← henc, ← hdec]
    obtain ⟨hkeptDec, hkeptEnc⟩ := exec_keeps_over hexec
    exact ⟨fun hover => .inl (hkeptDec hover), fun hover => .inl (hkeptEnc hover)⟩
  · obtain ⟨hd, he⟩ := State.resetAgent_other { s with host := rest } a
    exact ⟨fun _ => hd.symm.imp_right fun (ha : a = .dec) => ⟨rest, .inl (ha ▸ hhost)⟩,
      fun _ => he.symm.imp_right fun (ha : a = .enc) => ⟨rest, .inl (ha ▸ hhost)⟩⟩
  · obtain ⟨hd, he⟩ := State.launch_other hlaunch
    exact ⟨fun _ => hd.symm.imp_right fun hl => ⟨rest, .inr ⟨l, hl, hhost⟩⟩,
      fun _ => he.symm.imp_right fun hl => ⟨rest, .inr ⟨l, hl, hhost⟩⟩⟩

end Sys2Proof.Machine
end

