-- ==== Sys2Proof/Proofs/Schedules.lean ====
section
/-!
PROOF. Schedules (R224): a token step reads and writes its own agent's record alone, so the steps of the two agents commute;
a permutation of a queue of tokens is a chain of such exchanges.
-/

namespace Sys2Proof.Machine

/-! ### One token step -/

/-- R94: the encoder's record selects an instruction of the encoder. -/
theorem Enc.nextStep_agent {e : Enc} {i : Instr} (h : e.nextStep = .next i) : i.agent = .enc := by
  obtain ⟨tok, hrow⟩ := Enc.nextStep_next h
  obtain ⟨-, hgroup, -⟩ := decodeEncStep_reads_token hrow
  rw [Instr.agent, hgroup]

theorem step_token {s t : State} {a : Agent} {rest : List HostEvent} (hhost : s.host = .token a :: rest) :
    step s = .next t ↔ ∃ i, s.nextStep a = .next i ∧ exec i { s with host := rest } = .next t := by
  rw [step, hhost]
  exact runFetched_next

/-- R20: the encoder's token step is a move of its own record. -/
theorem step_enc_token {s t : State} {rest : List HostEvent} (hhost : s.host = .token .enc :: rest) :
    step s = .next t ↔ ∃ i e, s.enc.nextStep = .next i ∧ s.enc.phase = .run ∧ s.enc.Effect i e ∧
      { s with enc := e, host := rest } = t := by
  rw [step_token hhost]
  constructor
  · rintro ⟨i, hsel, hexec⟩
    obtain ⟨hphase, e, heff, rfl⟩ := exec_enc_effect (Enc.nextStep_agent hsel) hexec
    exact ⟨i, e, hsel, hphase, heff, rfl⟩
  · rintro ⟨i, e, hsel, hphase, heff, rfl⟩
    exact ⟨i, hsel, heff.exec_next (s := { s with host := rest }) hphase⟩

/-- R20: the decoder's token step is a move of its own record, under the parameters. -/
theorem step_dec_token {s t : State} {rest : List HostEvent} (hhost : s.host = .token .dec :: rest) :
    step s = .next t ↔ ∃ i d, s.dec.nextStep = .next i ∧ s.dec.phase = .run ∧ s.dec.Effect s.cfg i d ∧
      { s with dec := d, host := rest } = t := by
  rw [step_token hhost]
  constructor
  · rintro ⟨i, hsel, hexec⟩
    obtain ⟨hphase, d, heff, rfl⟩ := exec_dec_effect (Dec.nextStep_agent hsel) hexec
    exact ⟨i, d, hsel, hphase, heff, rfl⟩
  · rintro ⟨i, d, hsel, hphase, heff, rfl⟩
    exact ⟨i, hsel, heff.exec_next (s := { s with host := rest }) hphase⟩

/-- A token step reads nothing of the queue behind its event, and leaves it as it is. -/
theorem step_token_rest {s u : State} {a : Agent} {rest : List HostEvent} (hhost : s.host = .token a :: rest)
    (h : step s = .next u) :
    u.host = rest ∧ ∀ rest', step { s with host := .token a :: rest' } = .next { u with host := rest' } := by
  cases a
  case enc =>
    obtain ⟨i, e, hsel, hphase, heff, rfl⟩ := (step_enc_token hhost).1 h
    exact ⟨rfl, fun _ => (step_enc_token rfl).2 ⟨i, e, hsel, hphase, heff, rfl⟩⟩
  case dec =>
    obtain ⟨i, d, hsel, hphase, heff, rfl⟩ := (step_dec_token hhost).1 h
    exact ⟨rfl, fun _ => (step_dec_token rfl).2 ⟨i, d, hsel, hphase, heff, rfl⟩⟩

/-! ### Exchange of two token steps -/

/-- Two tokens offered in either order lead to the same state: of two agents, each step leaves what the other reads. -/
theorem step_token_swap {s u v : State} {a b : Agent} {rest : List HostEvent}
    (hhost : s.host = .token a :: .token b :: rest) (hu : step s = .next u) (hv : step u = .next v) :
    ∃ w, step { s with host := .token b :: .token a :: rest } = .next w ∧ step w = .next v := by
  cases a <;> cases b
  case enc.enc | dec.dec => exact ⟨u, hhost ▸ hu, hv⟩
  case enc.dec =>
    obtain ⟨i, e, hi, henc, heffE, rfl⟩ := (step_enc_token hhost).1 hu
    obtain ⟨j, d, hj, hdec, heffD, rfl⟩ := (step_dec_token rfl).1 hv
    exact ⟨_, (step_dec_token rfl).2 ⟨j, d, hj, hdec, heffD, rfl⟩, (step_enc_token rfl).2 ⟨i, e, hi, henc, heffE, rfl⟩⟩
  case dec.enc =>
    obtain ⟨j, d, hj, hdec, heffD, rfl⟩ := (step_dec_token hhost).1 hu
    obtain ⟨i, e, hi, henc, heffE, rfl⟩ := (step_enc_token rfl).1 hv
    exact ⟨_, (step_enc_token rfl).2 ⟨i, e, hi, henc, heffE, rfl⟩, (step_dec_token rfl).2 ⟨j, d, hj, hdec, heffD, rfl⟩⟩

/-! ### Every schedule -/

/-- Settles O48: by induction on the permutation; a common first token leaves the same state, and two tokens at the front
are exchanged. -/
theorem everyScheduleEndsTheSame : Obligations.EveryScheduleEndsTheSame := by
  intro s t l l' hperm htok hrun
  induction hperm generalizing s with
  | nil => exact hrun
  | cons x _ ih =>
    obtain ⟨⟨a, rfl⟩, hrest⟩ := List.forall_mem_cons.1 htok
    obtain ⟨u, hstep, hrun⟩ := core_run_succ.1 hrun
    obtain ⟨rfl, hany⟩ := step_token_rest rfl hstep
    exact core_run_succ.2 ⟨_, hany _, ih u hrest hrun⟩
  | swap x y _ =>
    obtain ⟨⟨b, rfl⟩, hrest⟩ := List.forall_mem_cons.1 htok
    obtain ⟨⟨a, rfl⟩, -⟩ := List.forall_mem_cons.1 hrest
    obtain ⟨u, hu, hrun⟩ := core_run_succ.1 hrun
    obtain ⟨v, hv, hrun⟩ := core_run_succ.1 hrun
    obtain ⟨w, hw, hwv⟩ := step_token_swap rfl hu hv
    exact core_run_succ.2 ⟨w, hw, core_run_succ.2 ⟨v, hwv, hrun⟩⟩
  | trans hp _ ih ih' =>
    exact ih' s (fun e he => htok e (hp.mem_iff.2 he)) (ih s htok hrun)

end Sys2Proof.Machine
end

