-- ==== Sys2Proof/Proofs/OverCalls.lean ====
section
/-!
PROOF. A call that is over (R215, R247): every frame an instruction runs in looks at `phase` first, and so does every fetch,
so there is no step of the agent but by reset or launch.
-/

namespace Sys2Proof.Machine

/-! ### The frames -/

theorem encStep_over {s : State} (hphase : s.enc.phase = .done) (tok : Token) (sel : Bool) (after : Enc) :
    encStep tok sel after s = .refused .callOver := by
  simp only [encStep, hphase]

theorem emitterStep_over {s : State} (hphase : s.enc.phase = .done) (sel : Bool) (after : Sink) :
    emitterStep sel after s = .refused .callOver := by
  simp only [emitterStep, hphase]

theorem decStep_over {s : State} (hphase : s.dec.phase ≠ .run) (tok : Token) (sel : Bool) (after : Option Dec) :
    decStep tok sel after s = .refused .callOver := by
  rw [decStep]
  split
  case h_1 | h_2 => rfl
  case h_3 hrun _ | h_4 hrun _ => exact absurd hrun hphase

theorem unitStep_over {s : State} (hphase : s.dec.phase ≠ .run) (bs : List Byte) (sel : Bool) (after : Option Dec) :
    unitStep bs sel after s = .refused .callOver := by
  rw [unitStep]
  split
  case h_1 | h_2 => rfl
  case h_3 hrun _ | h_4 hrun _ => exact absurd hrun hphase

theorem exec_enc_over {i : Instr} {s : State} (hi : i.agent = .enc) (hphase : s.enc.phase = .done) :
    exec i s = .refused .callOver := by
  obtain ⟨tok, sel, after, h⟩ | ⟨sel, after, h⟩ := exec_enc_frame hi s
  · rw [h, encStep_over hphase]
  · rw [h, emitterStep_over hphase]

theorem exec_dec_over {i : Instr} {s : State} (hi : i.agent = .dec) (hphase : s.dec.phase ≠ .run) :
    exec i s = .refused .callOver := by
  obtain ⟨after, ⟨tok, sel, h⟩ | ⟨bs, sel, h⟩, -⟩ := exec_dec_frame hi s
  · rw [h, decStep_over hphase]
  · rw [h, unitStep_over hphase]

/-! ### The fetches -/

theorem Enc.nextStep_over {e : Enc} (hphase : e.phase = .done) : e.nextStep = .refused .callOver := by
  simp only [Enc.nextStep, hphase]

theorem Dec.nextStep_over {d : Dec} (hphase : d.phase ≠ .run) : d.nextStep = .refused .callOver := by
  rw [Dec.nextStep]
  split
  case h_1 | h_2 => rfl
  case h_3 hrun _ | h_4 hrun _ => exact absurd hrun hphase

/-- A whole unit is fetched in phase `Run` alone (R162). -/
theorem Dec.nextUnit_over {d : Dec} (hphase : d.phase ≠ .run) : d.nextUnit = .refused .callOver := by
  rw [Dec.nextUnit]
  split
  case h_1 hrun _ _ => exact absurd hrun hphase
  case h_2 => exact Dec.nextStep_over hphase

/-! ### The step -/

theorem step_of_refused_token {s : State} {a : Agent} {rest : List HostEvent} {r : Refusal}
    (hhost : s.host = .token a :: rest) (hsel : s.nextStep a = .refused r) : step s = .refused r := by
  simp [step, hhost, hsel, runFetched]

theorem step_of_refused_unit {s : State} {rest : List HostEvent} {r : Refusal}
    (hhost : s.host = .unit :: rest) (hsel : s.dec.nextUnit = .refused r) : step s = .refused r := by
  simp [step, hhost, hsel, runFetched]

theorem step_of_none_live {s : State} (hhost : s.host = []) (henc : s.enc.phase = .done) (hdec : s.dec.phase ≠ .run) :
    step s = .refused .callOver := by
  have hnone : s.liveAgent = none := by
    simp [State.liveAgent, Enc.over_of_done henc, Dec.over_of_ne_run hdec]
  simp [step, hhost, hnone]

/-- Settles O39: the frame of the instruction, the fetch of the token or unit, and the choice of a live agent each refuse. -/
theorem anOverCallTakesNoStep : Obligations.AnOverCallTakesNoStep := by
  refine ⟨fun _ _ => exec_enc_over, fun _ _ => exec_dec_over, ?encToken, ?decEvent, fun _ => step_of_none_live⟩
  case encToken =>
    intro s rest hhost hphase
    exact step_of_refused_token hhost (Enc.nextStep_over hphase)
  case decEvent =>
    rintro s rest (hhost | hhost) hphase
    · exact step_of_refused_token hhost (Dec.nextStep_over hphase)
    · exact step_of_refused_unit hhost (Dec.nextUnit_over hphase)

end Sys2Proof.Machine
end

