-- ==== Sys2Proof/Proofs/Launches.lean ====
section
/-!
PROOF. A launch event (R245, R247): where the sink and the input both have a meaning it provides them and resets the agent;
where one has none it is refused under that one's name, the sink's first.
-/

namespace Sys2Proof.Machine

/-! ### What a launch event answers -/

theorem step_of_launch_ok {s : State} {l : Launch} {rest : List HostEvent} {k : Sink} {bytes : List Byte}
    (hhost : s.host = .launch l :: rest) (hsink : launchSink (s.sinkOf l.agent) l.sink = .ok k)
    (hinput : s.launchInput l.input = .ok bytes) :
    step s = .next ((({ s with host := rest } : State).provide bytes k l.agent).resetAgent l.agent) :=
  (step_of_launch_event hhost).trans (State.launch_next.2 ⟨k, bytes, hsink, hinput, rfl⟩)

theorem State.launch_of_refused_sink {s : State} {l : Launch} {r : Refusal}
    (hsink : launchSink (s.sinkOf l.agent) l.sink = .error r) : s.launch l = .refused r := by
  simp only [State.launch, hsink]

theorem State.launch_of_refused_input {s : State} {l : Launch} {k : Sink} {r : Refusal}
    (hsink : launchSink (s.sinkOf l.agent) l.sink = .ok k) (hinput : s.launchInput l.input = .error r) :
    s.launch l = .refused r := by
  simp only [State.launch, hsink, hinput]

/-- R216: whatever the input. -/
theorem step_of_refused_sink {s : State} {l : Launch} {rest : List HostEvent} {r : Refusal}
    (hhost : s.host = .launch l :: rest) (hsink : launchSink (s.sinkOf l.agent) l.sink = .error r) :
    step s = .refused r :=
  (step_of_launch_event hhost).trans (State.launch_of_refused_sink hsink)

theorem step_of_refused_input {s : State} {l : Launch} {rest : List HostEvent} {k : Sink} {r : Refusal}
    (hhost : s.host = .launch l :: rest) (hsink : launchSink (s.sinkOf l.agent) l.sink = .ok k)
    (hinput : s.launchInput l.input = .error r) : step s = .refused r :=
  (step_of_launch_event hhost).trans (State.launch_of_refused_input hsink hinput)

/-! ### The arguments that have a meaning -/

theorem State.launchInput_ok {s : State} {input : InputArg} {bytes : List Byte}
    (h : input = .own bytes ∨ (input = .encoderOutput ∧ s.enc.phase = .done ∧ bytes = s.enc.sink.output)) :
    s.launchInput input = .ok bytes := by
  obtain rfl | ⟨rfl, hdone, rfl⟩ := h
  · rfl
  · exact if_pos hdone

theorem State.launchInput_unfinished {s : State} (hphase : s.enc.phase = .run) :
    s.launchInput .encoderOutput = .error .streamNotFinished :=
  if_neg (hphase ▸ nofun)

theorem Sink.holding_olen (contents : List Byte) : (Sink.holding contents).olen = contents.length := by
  simp [Sink.holding]

theorem Sink.read_holding (contents : List Byte) (a : Nat) : (Sink.holding contents).out.read a = contents[a]? := by
  rw [Sink.holding, Sink.read_emitAll]
  split
  case isTrue => rfl
  case isFalse hout => exact (List.getElem?_eq_none (by simpa using hout)).symm

/-- The kept sink is the agent's own; a sink of the call's own holds what the host says, from index 0. -/
theorem launchSink_ok {k : SinkArg} (hk : k = .kept ∨ ∃ contents, k = .own contents) (current : Sink) :
    ∃ sink, launchSink current k = .ok sink ∧
      (k = .kept → sink.out = current.out ∧ sink.olen = current.olen) ∧
      ∀ contents, k = .own contents → sink.olen = contents.length ∧ ∀ a, sink.out.read a = contents[a]? := by
  obtain rfl | ⟨contents, rfl⟩ := hk
  · exact ⟨current, rfl, fun _ => ⟨rfl, rfl⟩, nofun⟩
  · refine ⟨Sink.holding contents, rfl, nofun, ?_⟩
    rintro _ ⟨⟩
    exact ⟨Sink.holding_olen contents, Sink.read_holding contents⟩

/-! ### The statements -/

/-- Settles O37: the launched call is the reset of the agent on the streams the arguments mean, and reset keeps `IN`, `OUT`
and `olen`. -/
theorem launchStartsACall : Obligations.LaunchStartsACall := by
  intro s rest input bytes k hinput hk
  have hbytes : s.launchInput input = .ok bytes := State.launchInput_ok hinput
  constructor
  · intro hhost
    obtain ⟨sink, hsink, hkept, hown⟩ := launchSink_ok hk s.enc.sink
    exact ⟨_, step_of_launch_ok hhost hsink hbytes, Enc.fresh_reset _, rfl, hkept, hown, rfl, rfl, rfl, rfl⟩
  · intro hhost
    obtain ⟨sink, hsink, hkept, hown⟩ := launchSink_ok hk s.dec.sink
    exact ⟨_, step_of_launch_ok hhost hsink hbytes, Dec.fresh_reset _, rfl, hkept, hown, rfl, rfl, rfl, rfl⟩

/-- Settles O38: the sink's refusal is looked at first, and an input is refused behind a sink that has a meaning. -/
theorem meaninglessLaunchesAreRefused : Obligations.MeaninglessLaunchesAreRefused := by
  intro s rest a input k
  refine ⟨fun h => step_of_refused_sink h rfl, fun h => step_of_refused_sink h rfl, fun h => step_of_refused_sink h rfl,
    fun h => step_of_refused_sink h rfl, fun hk => ?input, if_pos rfl, fun hpresent => if_neg hpresent⟩
  case input =>
    obtain ⟨sink, hsink, -⟩ := launchSink_ok hk (s.sinkOf a)
    exact ⟨fun hhost => step_of_refused_input hhost hsink rfl,
      fun hhost hphase => step_of_refused_input hhost hsink (State.launchInput_unfinished hphase)⟩

end Sys2Proof.Machine
end
